-- ==== Sys2Proof/Word.lean ====
section
/-! DEFINITION. The plain data the whole model is written over: bytes, register addresses, host transaction records
and eight-byte arrays (00_scope.md R8, R10, R11, R12). Only types stand here; what is done with them stands in
`Machine/Lanes.lean` and the files after it. -/

namespace Sys2Proof

/-- An 8-bit unsigned byte, bit 0 the least significant (R12). -/
abbrev Byte := BitVec 8

/-- A block address in the host register space, 0x00 to 0xFF (R10, R40). -/
abbrev Addr := BitVec 8

/-- A `BUS17` record: one host transaction, 17 bits (R60, R61). -/
abbrev Record := BitVec 17

/-- The index of a byte lane, 0 to 7 (R11, R105). -/
abbrev Lane := Fin 8

/-- An array of eight bytes, index 0 the first byte of the frame (R8, R11): a key, an input or output block, or the
cipher-state table. -/
structure Bytes8 where
  b0 : Byte
  b1 : Byte
  b2 : Byte
  b3 : Byte
  b4 : Byte
  b5 : Byte
  b6 : Byte
  b7 : Byte
  deriving DecidableEq, Repr, Inhabited

/-- Eight 0x00 bytes. -/
def Bytes8.zero : Bytes8 := ⟨0, 0, 0, 0, 0, 0, 0, 0⟩

end Sys2Proof
end

