-- ==== Sys2Proof/Syntax.lean ====
section
/-! DEFINITION. The instructions, one constructor per row of opcode_table.json. Each "instruction" is one host
transaction or one command byte carried by a transaction (10_state.md R33). -/

namespace Sys2Proof

/-- The rows of the opcode table. A WRITE to `CMD` whose byte decodes is the command itself (30_encoding.md R65).
An illegal command has no row (R66): it is the WRITE to address 0x18 that carries its byte (assumption log 12). -/
inductive Instr
  /-- READ (R80): `BUS17` with `WE = 0`; the record's `DATA` is ignored (R61), so it is no operand. -/
  | read (addr : Addr)
  /-- WRITE (R81): `BUS17` with `WE = 1`. -/
  | write (addr : Addr) (data : Byte)
  /-- NOP (R99): `CMD8` = 0x00. -/
  | nop
  /-- DECRYPT (R100): `CMD8` = 0x01. -/
  | decrypt
  /-- ENCRYPT (R101): `CMD8` = 0x02. -/
  | encrypt
  /-- CLRSTAT (R102): `CMD8` = 0x03. -/
  | clrstat
  deriving DecidableEq, Repr

end Sys2Proof
end

