-- ==== Sys2Proof/WellFormed.lean ====
section
/-! DEFINITION. Which instructions are the reading of a record. The operands are whole 8-bit fields, so the one check
is that a WRITE is not a command under another name (30_encoding.md R63, R65, R66). -/

namespace Sys2Proof

/-- A WRITE to `CMD` (0x18) of one of the bytes 0x00 to 0x03 is the command NOP, DECRYPT, ENCRYPT or CLRSTAT and is
written as that; every other WRITE, an illegal command among them, is a WRITE. -/
def Instr.wf : Instr → Bool
  | .read _ => true
  | .write addr data => !(addr == 0x18 && decide (data.toNat ≤ 0x03))
  | .nop => true
  | .decrypt => true
  | .encrypt => true
  | .clrstat => true

end Sys2Proof
end

