-- ==== Sys2Proof/Decode.lean ====
section
/-! DEFINITION. The two formats of 30_encoding.md, `BUS17` and `CMD8`: the decoder (R60 to R66), then the encoder
(R61, R63, R67), then the reading of a word as opcode_table.json numbers its bits. -/

namespace Sys2Proof

/-- The address of the command port `CMD` (20_memory.md R41). -/
def cmdAddr : Addr := 0x18

/-- What a `CMD8` byte selects when it decodes (R63). -/
inductive Command
  | nop
  | decrypt
  | encrypt
  | clrstat
  deriving DecidableEq, Repr

/-- The `RSV` field of a command byte, bits 7:3 (R62). -/
def rsvField (c : Byte) : BitVec 5 := c.extractLsb' 3 5

/-- The `OP` field of a command byte, bits 2:0 (R62). -/
def opField (c : Byte) : BitVec 3 := c.extractLsb' 0 3

/-- Decoding a command byte (R65); `none` is an illegal command (R66). -/
def decodeCmd8 (c : Byte) : Option Command :=
  if rsvField c == 0b00000 && opField c == 0b000 then some .nop
  else if rsvField c == 0b00000 && opField c == 0b001 then some .decrypt
  else if rsvField c == 0b00000 && opField c == 0b010 then some .encrypt
  else if rsvField c == 0b00000 && opField c == 0b011 then some .clrstat
  else none

/-- The opcode-table row of a command. -/
def Command.toInstr : Command → Instr
  | .nop => .nop
  | .decrypt => .decrypt
  | .encrypt => .encrypt
  | .clrstat => .clrstat

/-- `WE`, bit 16 of a record: 0 = READ, 1 = WRITE (R61). -/
def weField (t : Record) : Bool := t.getLsbD 16

/-- `ADDR`, bits 15:8 of a record (R61). -/
def addrField (t : Record) : Addr := t.extractLsb' 8 8

/-- `DATA`, bits 7:0 of a record (R61). -/
def dataField (t : Record) : Byte := t.extractLsb' 0 8

/-- A WRITE as the instruction it is: at address 0x18 its `DATA` is decoded as `CMD8`, and an illegal command stays
the WRITE that carries it (R65, R66). -/
def decodeWrite (addr : Addr) (data : Byte) : Instr :=
  if addr == cmdAddr then
    match decodeCmd8 data with
    | some c => c.toInstr
    | none => .write addr data
  else .write addr data

/-- Decoding a `BUS17` record (R65). "Every 17-bit value decodes; none is illegal." -/
def decode (t : Record) : Instr :=
  if weField t then decodeWrite (addrField t) (dataField t) else .read (addrField t)

/-- Why a list of bytes is no `BUS17` record. -/
inductive DecodeError
  /-- A record is laid out in three bytes; this many were given. -/
  | notThreeBytes (given : Nat)
  /-- The third byte has a bit above `WE` set, so the value does not fit in 17 bits. -/
  | above17Bits
  deriving DecidableEq, Repr

/-- The record that three bytes hold, `DATA` first, then `ADDR`, then `WE` in bit 0 of the third. DESIGN CHOICE: the
spec gives a record no byte layout (assumption log 8). -/
def recordOfBytes : List Byte → Except DecodeError Record
  | [data, addr, we] =>
    if we.toNat ≤ 1 then
      .ok ((we.setWidth 17 <<< 16) ||| (addr.setWidth 17 <<< 8) ||| data.setWidth 17)
    else .error .above17Bits
  | bytes => .error (.notThreeBytes bytes.length)

/-- Decoding bytes, total on any bytes: they are a record and decode, or they are rejected by name. -/
def decodeBytes (bytes : List Byte) : Except DecodeError Instr :=
  match recordOfBytes bytes with
  | .ok t => .ok (decode t)
  | .error e => .error e

/-- The record of `RD a`: `a << 8` (R67). -/
def readRecord (addr : Addr) : Record := addr.setWidth 17 <<< 8

/-- The record of `WR a, d`: `0x10000 | a << 8 | d` (R67). -/
def writeRecord (addr : Addr) (data : Byte) : Record :=
  0x10000#17 ||| (addr.setWidth 17 <<< 8) ||| data.setWidth 17

/-- The command byte of a command (R63). -/
def Command.byte : Command → Byte
  | .nop => 0x00
  | .decrypt => 0x01
  | .encrypt => 0x02
  | .clrstat => 0x03

/-- The encoder: the record of an instruction. A READ's ignored `DATA` is written 0x00 (R61). -/
def encode : Instr → Record
  | .read addr => readRecord addr
  | .write addr data => writeRecord addr data
  | .nop => writeRecord cmdAddr Command.nop.byte
  | .decrypt => writeRecord cmdAddr Command.decrypt.byte
  | .encrypt => writeRecord cmdAddr Command.encrypt.byte
  | .clrstat => writeRecord cmdAddr Command.clrstat.byte

/-- The bytes of an instruction's record, in the layout of `recordOfBytes`. -/
def encodeBytes (i : Instr) : List Byte :=
  [dataField (encode i), addrField (encode i), (encode i).extractLsb' 16 1 |>.setWidth 8]

/-- The record that a word of the opcode table stands in. A row of format `CMD8` has 8 bits and is the `DATA` byte of
a WRITE to `CMD` (R60; the rows' `bus17_match`); a `BUS17` row is the record itself (assumption log 9). -/
def recordOfTableWord (nbits w : Nat) : Record :=
  if nbits ≤ 8 then writeRecord cmdAddr (BitVec.ofNat 8 w) else BitVec.ofNat 17 w

/-- The bytes that a word of the opcode table stands in; a bit above the word's three bytes makes a fourth byte, which
the decoder refuses. -/
def bytesOfTableWord (nbits w : Nat) : List Byte :=
  if nbits ≤ 8 then
    [BitVec.ofNat 8 w, cmdAddr, 1] ++ (if w < 2 ^ 8 then [] else [BitVec.ofNat 8 (w / 2 ^ 8)])
  else
    [BitVec.ofNat 8 w, BitVec.ofNat 8 (w / 2 ^ 8), BitVec.ofNat 8 (w / 2 ^ 16)] ++
      (if w < 2 ^ 24 then [] else [BitVec.ofNat 8 (w / 2 ^ 24)])

/-- The instruction the decoder reads from a word of the opcode table, `none` where it refuses. -/
def decodeTableWord (nbits w : Nat) : Option Instr :=
  match decodeBytes (bytesOfTableWord nbits w) with
  | .ok i => some i
  | .error _ => none

end Sys2Proof
end

