-- ==== Sys2Proof/Machine/Lanes.lean ====
section
/-! DEFINITION. Operations on eight-byte arrays and on one lane: element access (00_scope.md R11), lane-wise arrays
(R15), the widening and truncation of R13 and R14, and the 64-bit view of R16. -/

namespace Sys2Proof

/-- The lane a number names, modulo 8 (R11). -/
def toLane (n : Nat) : Lane := ⟨n % 8, Nat.mod_lt n (by decide)⟩

/-- `(i − 1 + 8) mod 8` (R11, R92). -/
def prevLane (i : Lane) : Lane := toLane (i.val + 8 - 1)

/-- `(i + 1) mod 8` (R11, R96). -/
def nextLane (i : Lane) : Lane := toLane (i.val + 1)

/-- The lanes in order. -/
def lanes : List Lane := [0, 1, 2, 3, 4, 5, 6, 7]

/-- `a[i]` (R11). -/
def Bytes8.get (a : Bytes8) : Lane → Byte
  | 0 => a.b0
  | 1 => a.b1
  | 2 => a.b2
  | 3 => a.b3
  | 4 => a.b4
  | 5 => a.b5
  | 6 => a.b6
  | 7 => a.b7

/-- The array with `a[i] <- v` (R14). -/
def Bytes8.set (a : Bytes8) (i : Lane) (v : Byte) : Bytes8 :=
  match i with
  | 0 => { a with b0 := v }
  | 1 => { a with b1 := v }
  | 2 => { a with b2 := v }
  | 3 => { a with b3 := v }
  | 4 => { a with b4 := v }
  | 5 => { a with b5 := v }
  | 6 => { a with b6 := v }
  | 7 => { a with b7 := v }

/-- `for i in 0..7: b[i] <- f(i)`, every lane computed from the inputs as they stood before (R15). -/
def Bytes8.ofFn (f : Lane → Byte) : Bytes8 := ⟨f 0, f 1, f 2, f 3, f 4, f 5, f 6, f 7⟩

/-- `for i in 0..7: b[p(i)] <- a[i]`, the writes of R90 one after another. -/
def Bytes8.scatter (p : Lane → Lane) (a : Bytes8) : Bytes8 :=
  lanes.foldl (fun b i => b.set (p i) (a.get i)) Bytes8.zero

/-- `zext_16(v)` (R14). -/
def zext16 (v : Byte) : BitVec 16 := v.setWidth 16

/-- `v & 0xFF`, back to a byte (R13). -/
def trunc8 (v : BitVec 16) : Byte := (v &&& 0x00FF).setWidth 8

/-- `W(a) = a[0]·2^56 + a[1]·2^48 + ... + a[7]`, byte 0 most significant: a notation only (R16). -/
def Bytes8.word64 (a : Bytes8) : BitVec 64 :=
  BitVec.ofNat 64 ((a.get 0).toNat * 2 ^ 56 + (a.get 1).toNat * 2 ^ 48 + (a.get 2).toNat * 2 ^ 40 +
    (a.get 3).toNat * 2 ^ 32 + (a.get 4).toNat * 2 ^ 24 + (a.get 5).toNat * 2 ^ 16 +
    (a.get 6).toNat * 2 ^ 8 + (a.get 7).toNat)

/-- `rotr64(w, n)` (R16). -/
def rotr64 (w : BitVec 64) (n : Nat) : BitVec 64 := w.rotateRight n

/-- `rotl64(w, n)` (R16). -/
def rotl64 (w : BitVec 64) (n : Nat) : BitVec 64 := w.rotateLeft n

end Sys2Proof
end

