-- ==== Sys2Proof/Machine/Cipher.lean ====
section
/-! DEFINITION. The cipher transform of 41_cipher_ops.md sections 1 and 2: the five stages in the source's order
(R90 to R95), and the inverse (R96). Pure functions of the key, the block and the table `CSTATE`; the intermediate
arrays are no state (10_state.md R34). -/

namespace Sys2Proof

/-- The shuffle table `P = [2, 4, 0, 7, 1, 6, 5, 3]`, a constant of the hardware (R32). -/
def P : Lane → Lane
  | 0 => 2
  | 1 => 4
  | 2 => 0
  | 3 => 7
  | 4 => 1
  | 5 => 6
  | 6 => 5
  | 7 => 3

/-- Stage 1, de-shuffle: `s1[P[i]] <- f[i]` (R90). -/
def shuffle (f : Bytes8) : Bytes8 := Bytes8.scatter P f

/-- Stage 2, key mix: `s2[i] <- s1[i] XOR key[i]` (R91). -/
def keyMix (s1 key : Bytes8) : Bytes8 := .ofFn fun i => s1.get i ^^^ key.get i

/-- Stage 3, bit-rotation combine: `((s2[i] >> 3) | (zext_16(s2[(i−1+8) mod 8]) << 5)) & 0xFF`, every lane from the
array as it stood before the stage (R92, R148; the low 3 bits are borrowed, 90_conflicts.md C1). -/
def rotCombine (s2 : Bytes8) : Bytes8 :=
  .ofFn fun i => trunc8 (zext16 (s2.get i >>> 3) ||| (zext16 (s2.get (prevLane i)) <<< 5))

/-- Stage 4, cipher-state nibble swap: `((cs[i] >> 4) | (zext_16(cs[i]) << 4)) & 0xFF` (R93). -/
def nibbleSwap (cs : Bytes8) : Bytes8 :=
  .ofFn fun i => trunc8 (zext16 (cs.get i >>> 4) ||| (zext16 (cs.get i) <<< 4))

/-- Stage 5, final subtraction with wrap-around: `(0x100 + s3[i] − CTMP[i]) & 0xFF` (R94). -/
def subtract (s3 ctmp : Bytes8) : Bytes8 :=
  .ofFn fun i => trunc8 (0x0100#16 + zext16 (s3.get i) - zext16 (ctmp.get i))

/-- `Decrypt(key, f, cs)`: the five stages in the source's order (R95). -/
def decryptBlock (key f cs : Bytes8) : Bytes8 :=
  let s1 := shuffle f
  let s2 := keyMix s1 key
  let s3 := rotCombine s2
  let ctmp := nibbleSwap cs
  subtract s3 ctmp

/-- The inverse of stage 5: `t3[i] = (p[i] + CTMP[i]) & 0xFF` (R96). -/
def addBack (p ctmp : Bytes8) : Bytes8 :=
  .ofFn fun i => trunc8 (zext16 (p.get i) + zext16 (ctmp.get i))

/-- The inverse of stage 3: `t2[i] = ((zext_16(t3[i]) << 3) | (t3[(i+1) mod 8] >> 5)) & 0xFF` (R96). -/
def rotSplit (t3 : Bytes8) : Bytes8 :=
  .ofFn fun i => trunc8 ((zext16 (t3.get i) <<< 3) ||| zext16 (t3.get (nextLane i) >>> 5))

/-- The inverse of stage 1: `c[i] = t1[P[i]]` (R96). -/
def unshuffle (t1 : Bytes8) : Bytes8 := .ofFn fun i => t1.get (P i)

/-- `Encrypt(key, p, cs)`: the inverses of the stages in reverse order (R96). -/
def encryptBlock (key p cs : Bytes8) : Bytes8 :=
  let ctmp := nibbleSwap cs
  let t3 := addBack p ctmp
  let t2 := rotSplit t3
  let t1 := keyMix t2 key
  unshuffle t1

end Sys2Proof
end

