-- ==== Sys2Proof/Machine/Flags.lean ====
section
/-! DEFINITION. The flags of STATUS, each a pure function of `DOUT` and `ILL` at the moment of the read
(10_state.md R26 to R29, R31). -/

namespace Sys2Proof.Machine

/-- CKOK: `(zext_16(DOUT[0]) + DOUT[1] + DOUT[2]) mod 256 == DOUT[3]`, the sum taken before the reduction (R27). -/
def ckok (dout : Bytes8) : Bool :=
  (zext16 (dout.get 0) + zext16 (dout.get 1) + zext16 (dout.get 2)) % 256 == zext16 (dout.get 3)

/-- TMOK: `DOUT[4] == 0x0D` (R28). -/
def tmok (dout : Bytes8) : Bool := dout.get 4 == 0x0D

/-- VALID: `CKOK & TMOK` (R29). -/
def valid (dout : Bytes8) : Bool := ckok dout && tmok dout

/-- A flag as a byte, in bit 0. -/
def flagBit (b : Bool) : Byte := if b then 1 else 0

/-- STATUS: `CKOK | TMOK<<1 | VALID<<2 | ILL<<3`, bits 7:4 zero (R26, R80). -/
def statusByte (dout : Bytes8) (ill : Bool) : Byte :=
  flagBit (ckok dout) ||| (flagBit (tmok dout) <<< 1) ||| (flagBit (valid dout) <<< 2) ||| (flagBit ill <<< 3)

end Sys2Proof.Machine
end

