-- ==== Sys2Proof/Machine/Operands.lean ====
section
/-! DEFINITION. The one operand form: the absolute 8-bit address (40_host_access.md R83), as the register map of
20_memory.md R41 reads it. -/

namespace Sys2Proof.Machine

/-- What an address of the register map names (R41). -/
inductive Reg
  /-- `KEY[i]`, read / write. -/
  | key (i : Lane)
  /-- `DIN[i]`, read / write. -/
  | din (i : Lane)
  /-- `DOUT[i]`, read only. -/
  | dout (i : Lane)
  /-- `CMD`, write only. -/
  | cmd
  /-- `STATUS`, read only. -/
  | status
  /-- 0x1A to 0xFF: reads return 0x00, writes are ignored. -/
  | reserved
  deriving DecidableEq, Repr

/-- The register at an address; byte `i` of a group is at offset `i` (R41, R43). -/
def regAt (addr : Addr) : Reg :=
  if addr.toNat ≤ 0x07 then .key (toLane addr.toNat)
  else if addr.toNat ≤ 0x0F then .din (toLane (addr.toNat - 0x08))
  else if addr.toNat ≤ 0x17 then .dout (toLane (addr.toNat - 0x10))
  else if addr.toNat = 0x18 then .cmd
  else if addr.toNat = 0x19 then .status
  else .reserved

/-- The address of `KEY[i]`: 0x00 + i (R43). -/
def keyAddr (i : Lane) : Addr := 0x00 + BitVec.ofNat 8 i.val

/-- The address of `DIN[i]`: 0x08 + i (R43). -/
def dinAddr (i : Lane) : Addr := 0x08 + BitVec.ofNat 8 i.val

/-- The address of `DOUT[i]`: 0x10 + i (R43). -/
def doutAddr (i : Lane) : Addr := 0x10 + BitVec.ofNat 8 i.val

/-- The address of `STATUS` (R41). -/
def statusAddr : Addr := 0x19

/-- The block address a host address reaches: address `BASE + a` reaches `a`, and an address outside the 256-byte
window reaches no register of the block (R40, R53). -/
def blockAddr (base hostAddr : Nat) : Option Addr :=
  if base ≤ hostAddr ∧ hostAddr < base + 0x100 then some (BitVec.ofNat 8 (hostAddr - base)) else none

end Sys2Proof.Machine
end

