-- ==== Sys2Proof/Config.lean ====
section
/-! DEFINITION. What the spec leaves to an implementation as a named parameter: `CSTATE` (00_scope.md R9,
10_state.md R30, decision D7) and `BASE` (20_memory.md R53, decision D5). Both are constants with no body, so
nothing proved of the model can rest on a value of theirs. -/

namespace Sys2Proof.Config

/-- `CSTATE[0..7]`, the cipher-state table: "No rule of this spec depends on a particular value" (R9). It is the
table the machine after reset carries; the operations take the table from the state, so a statement about every
state is a statement about every table (assumption log 1). -/
opaque cstate : Bytes8

/-- `BASE`: where the block's 256 addresses sit in the host's own address map (R53; assumption log 2). -/
opaque base : Nat

end Sys2Proof.Config
end

