-- ==== Sys2Proof/Machine/State.lean ====
section
/-! DEFINITION. The machine's state, its reset value, and the reasons a step can stop. The spec's own state is the
tuple `S = (KEY, DIN, DOUT, ILL)` (10_state.md R20). Beside it stand four fields of the model's own: the parameter
`CSTATE`, which a model "takes as an argument" (00_scope.md R9), and the host's side of the bus (20_memory.md R49):
the transactions it has issued, the bytes READ has returned to it, and how many host agents the system has. -/

namespace Sys2Proof.Machine

/-- One event the outside world brings to the block. -/
inductive Input
  /-- A host transaction: one `BUS17` record (R60). -/
  | transaction (t : Record)
  /-- Reset, one event asserted by the platform (R140), with the transactions issued while it is asserted (R142; none
  in every run the spec gives a meaning). -/
  | reset (during : List Record)
  deriving DecidableEq, Repr

/-- Reasons to stop with a fault: none. "The block raises no synchronous exception. Every transaction and every
command completes with a defined result" (60_exceptions.md R120). Nothing raises one; exact. -/
inductive Fault
  deriving DecidableEq, Repr

/-- Reasons a step has no meaning. -/
inductive Refusal
  /-- An instruction with no meaning yet, by its mnemonic in opcode_table.json. No arm of `exec` raises it: every row
  has its meaning. Safe. -/
  | notModelled (mnemonic : String)
  /-- Raised by `step` when the system has more than one host agent: "a model refuses a configuration with more than
  one host agent" (20_memory.md R49). Safe: the machine stops where a shared block would go on. -/
  | multipleHosts
  /-- Raised by `step` at a reset during which a transaction was issued: "a model refuses a run that has one"
  (70_reset_and_hazards.md R142). Safe. -/
  | transactionDuringReset
  deriving DecidableEq, Repr

/-- The state: the tuple of R20, then the model's own fields. -/
structure State where
  /-- `KEY[0..7]`, addresses 0x00 to 0x07 (R21). -/
  key : Bytes8
  /-- `DIN[0..7]`, addresses 0x08 to 0x0F (R22). -/
  din : Bytes8
  /-- `DOUT[0..7]`, addresses 0x10 to 0x17 (R23). -/
  dout : Bytes8
  /-- `ILL`, the sticky error bit, read as STATUS bit 3 (R31). -/
  ill : Bool
  /-- Model's own: the parameter `CSTATE` of this machine, which no step and no reset changes (R30; assumption
  log 1). -/
  cstate : Bytes8
  /-- Model's own: what the host and the platform have issued and the block has not yet taken, oldest first (R49;
  assumption log 3). -/
  inputs : List Input
  /-- Model's own: the bytes READ has returned to the host, oldest first (R61, R80; assumption log 4). -/
  replies : List Byte
  /-- Model's own: the number of host agents of the system, one in every system the spec gives a meaning (R49, R128;
  assumption log 6). -/
  hosts : Nat
  deriving DecidableEq, Repr

/-- The machine right after reset (R36, R140): `KEY`, `DIN`, `DOUT` all 0x00, `ILL` 0, one host, `CSTATE` the
parameter; no transaction issued and no byte returned yet (the model's own fields; assumption log 5). -/
def State.reset : State where
  key := Bytes8.zero
  din := Bytes8.zero
  dout := Bytes8.zero
  ill := false
  cstate := Config.cstate
  inputs := []
  replies := []
  hosts := 1

end Sys2Proof.Machine
end

