-- ==== Sys2Proof/Machine/Ops.lean ====
section
/-! DEFINITION. The named operations over the registers: updates of one register, the two bus operations, the effects
of the commands, the reset event. There is no exception to take and none to return from: "there is no trap entry, no
saved state, no vector, no return-from-trap instruction" (60_exceptions.md R124). What the block does with a command
byte that does not decode is `markIllegal`, one operation for all 252 of them (R103). -/

namespace Sys2Proof.Machine

/-- `KEY[i] <- v`. -/
def State.setKeyByte (s : State) (i : Lane) (v : Byte) : State := { s with key := s.key.set i v }

/-- `DIN[i] <- v`. -/
def State.setDinByte (s : State) (i : Lane) (v : Byte) : State := { s with din := s.din.set i v }

/-- `DOUT <- b`, all eight bytes in one step (R23). -/
def State.setDout (s : State) (b : Bytes8) : State := { s with dout := b }

/-- `ILL <- b`. -/
def State.setIll (s : State) (b : Bool) : State := { s with ill := b }

/-- A byte returned to the host. -/
def State.pushReply (s : State) (v : Byte) : State := { s with replies := s.replies ++ [v] }

/-- What is still to be taken, replaced. -/
def State.setInputs (s : State) (l : List Input) : State := { s with inputs := l }

/-- STATUS as it reads now (R26). -/
def State.status (s : State) : Byte := statusByte s.dout s.ill

/-- `BusRead(addr)`: the byte an address reads as; state is not changed (R80, R42, R48). -/
def busRead (s : State) (addr : Addr) : Byte :=
  match regAt addr with
  | .key i => s.key.get i
  | .din i => s.din.get i
  | .dout i => s.dout.get i
  | .cmd => 0x00
  | .status => s.status
  | .reserved => 0x00

/-- The effect of NOP: nothing (R99). -/
def doNop (s : State) : State := s

/-- The effect of DECRYPT: `DOUT <- Decrypt(KEY, DIN, CSTATE)` (R100). -/
def doDecrypt (s : State) : State := s.setDout (decryptBlock s.key s.din s.cstate)

/-- The effect of ENCRYPT: `DOUT <- Encrypt(KEY, DIN, CSTATE)` (R101). -/
def doEncrypt (s : State) : State := s.setDout (encryptBlock s.key s.din s.cstate)

/-- The effect of CLRSTAT: `ILL <- 0` (R102). -/
def doClrstat (s : State) : State := s.setIll false

/-- The effect of an illegal command: `ILL <- 1`; no trap, and the byte is not recorded (R103, R120). -/
def markIllegal (s : State) : State := s.setIll true

/-- `Execute(c)`: decoding comes first (R123), then exactly one of R99 to R103, completely (R98). -/
def execute (s : State) (c : Byte) : State :=
  match decodeCmd8 c with
  | some .nop => doNop s
  | some .decrypt => doDecrypt s
  | some .encrypt => doEncrypt s
  | some .clrstat => doClrstat s
  | none => markIllegal s

/-- `BusWrite(addr, data)` (R81): a write to `DOUT`, `STATUS` or a reserved address does nothing (R42, R48). -/
def busWrite (s : State) (addr : Addr) (data : Byte) : State :=
  match regAt addr with
  | .key i => s.setKeyByte i data
  | .din i => s.setDinByte i data
  | .cmd => execute s data
  | .dout _ => s
  | .status => s
  | .reserved => s

/-- The reset event: every piece of the block's state at its reset value; `CSTATE` is not affected (R36, R140). The
host's side of the bus is not the block's state and stays (assumption log 7). -/
def resetEvent (s : State) : State :=
  { s with key := Bytes8.zero, din := Bytes8.zero, dout := Bytes8.zero, ill := false }

/-- The record of a host access at an address of the host's own map, and none where the access does not reach the
block (R53, R61). A READ's ignored `DATA` is 0x00. -/
def hostRecord (base hostAddr : Nat) (data : Option Byte) : Option Record :=
  match blockAddr base hostAddr, data with
  | some addr, some d => some (writeRecord addr d)
  | some addr, none => some (readRecord addr)
  | none, _ => none

end Sys2Proof.Machine
end

