-- ==== Sys2Proof/Machine/Commands.lean ====
section
/-! DEFINITION. The meanings of the four commands (41_cipher_ops.md section 3), each the WRITE to `CMD` that carries
its byte. -/

namespace Sys2Proof.Machine

/-- NOP (R99): no flag written, `ILL` not cleared. -/
def execNop (s : State) : Host.Outcome State Fault Refusal := .next (doNop s)

/-- DECRYPT (R100): total, "no failure path"; `KEY`, `DIN` and `ILL` unchanged. -/
def execDecrypt (s : State) : Host.Outcome State Fault Refusal := .next (doDecrypt s)

/-- ENCRYPT (R101): `KEY`, `DIN` and `ILL` unchanged. -/
def execEncrypt (s : State) : Host.Outcome State Fault Refusal := .next (doEncrypt s)

/-- CLRSTAT (R102): `ILL` only. -/
def execClrstat (s : State) : Host.Outcome State Fault Refusal := .next (doClrstat s)

end Sys2Proof.Machine
end

