-- ==== Sys2Proof/Machine/HostAccess.lean ====
section
/-! DEFINITION. The meanings of the two host transactions (40_host_access.md). -/

namespace Sys2Proof.Machine

/-- READ: the addressed byte is returned to the host; no state of the block changes, every address reads (R80). -/
def execRead (addr : Addr) (s : State) : Host.Outcome State Fault Refusal :=
  .next (s.pushReply (busRead s addr))

/-- WRITE: one register byte is written, or a command is issued; no exception (R81). -/
def execWrite (addr : Addr) (data : Byte) (s : State) : Host.Outcome State Fault Refusal :=
  .next (busWrite s addr data)

end Sys2Proof.Machine
end

