-- ==== Sys2Proof/Machine/Dispatch.lean ====
section
/-! DEFINITION. One arm per row of opcode_table.json, each one call of its meaning. -/

namespace Sys2Proof.Machine

def exec (i : Instr) (s : State) : Host.Outcome State Fault Refusal :=
  match i with
  -- Host transactions: 40_host_access.md
  | .read addr => Sys2Proof.Machine.execRead addr s
  | .write addr data => Sys2Proof.Machine.execWrite addr data s
  -- Commands: 41_cipher_ops.md
  | .nop => Sys2Proof.Machine.execNop s
  | .decrypt => Sys2Proof.Machine.execDecrypt s
  | .encrypt => Sys2Proof.Machine.execEncrypt s
  | .clrstat => Sys2Proof.Machine.execClrstat s

end Sys2Proof.Machine
end

