-- ==== Sys2Proof/Machine/Step.lean ====
section
/-! DEFINITION. One step: the block takes the oldest input. It has no program counter and fetches nothing (10_state.md
R33); transactions take effect one at a time in the order the one host issues them (20_memory.md R49). -/

namespace Sys2Proof.Machine

/-- One step. More than one host agent is refused (R49). With no input nothing happens (assumption log 5). A reset
event resets the block (R140), or is refused when a transaction was issued during it (R142). A transaction is decoded
and performed completely before the next one begins (R47). -/
def step (s : State) : Host.Outcome State Fault Refusal :=
  if 1 < s.hosts then .refused .multipleHosts
  else
    match s.inputs with
    | [] => .next s
    | .reset [] :: rest => .next (resetEvent (s.setInputs rest))
    | .reset (_ :: _) :: _ => .refused .transactionDuringReset
    | .transaction t :: rest => exec (decode t) (s.setInputs rest)

/-- `s` with the transaction that a word of the opcode table stands in issued ahead of all others, in a system of one
host, so that the next step performs it (assumption logs 3 and 9). -/
def State.withFetchWord (s : State) (nbits w : Nat) : State :=
  { s with inputs := .transaction (recordOfTableWord nbits w) :: s.inputs, hosts := 1 }

end Sys2Proof.Machine
end

