-- ==== Sys2Proof/Machine/Assembler.lean ====
section
/-! DEFINITION. The assembly language of 30_encoding.md section 4: register names and lines (R67), the expansions of
the pseudo-instructions (R68), and a reader of the text. It is the way a host's program becomes records; `step` does
not use it. -/

namespace Sys2Proof.Asm

/-- `<addr>`: a hexadecimal number `0xNN` or a register name (R67). -/
inductive AddrExpr
  | num (addr : Addr)
  | key (i : Lane)
  | din (i : Lane)
  | dout (i : Lane)
  | cmd
  | status
  deriving DecidableEq, Repr

/-- The address an `<addr>` stands for (R67). -/
def AddrExpr.value : AddrExpr → Addr
  | .num addr => addr
  | .key i => Machine.keyAddr i
  | .din i => Machine.dinAddr i
  | .dout i => Machine.doutAddr i
  | .cmd => cmdAddr
  | .status => Machine.statusAddr

/-- A line: `RD` and `WR` (R67), then the pseudo-instructions (R68). -/
inductive Line
  | rd (addr : AddrExpr)
  | wr (addr : AddrExpr) (byte : Byte)
  | nop
  | dec
  | enc
  | clrst
  | ldkey (k : List Byte)
  | ldin (b : List Byte)
  | rdout
  | rdst
  deriving DecidableEq, Repr

/-- `WR base+0, b0` ... in order, for the bytes given. -/
def loads (addr : Lane → Addr) (bytes : List Byte) : List Record :=
  (lanes.zip bytes).map fun p => writeRecord (addr p.1) p.2

/-- The records of a line: the encodings of R67 and the expansions of R68. -/
def Line.records : Line → List Record
  | .rd a => [readRecord a.value]
  | .wr a d => [writeRecord a.value d]
  | .nop => [writeRecord cmdAddr 0x00]
  | .dec => [writeRecord cmdAddr 0x01]
  | .enc => [writeRecord cmdAddr 0x02]
  | .clrst => [writeRecord cmdAddr 0x03]
  | .ldkey k => loads Machine.keyAddr k
  | .ldin b => loads Machine.dinAddr b
  | .rdout => lanes.map fun i => readRecord (Machine.doutAddr i)
  | .rdst => [readRecord Machine.statusAddr]

/-- The records of a program, line by line (R67). -/
def assemble (lines : List Line) : List Record := lines.flatMap Line.records

/-! ### The text of a line -/

/-- The digits of `0xNN` in the order of their values; either case is read (R67, assumption log 11). -/
def digits : List Char := "0123456789ABCDEF".toList

/-- The value of a digit: its place among the first `base` digits. -/
def digitOf (base : Nat) (c : Char) : Option Nat := (digits.take base).idxOf? c.toUpper

/-- The index of a register name, 0 to 7. -/
def indexDigit (c : Char) : Option Lane := (digitOf 8 c).map toLane

/-- `0xNN`: two digits, the high nibble first (R67). -/
def byteOf : List Char → Option Byte
  | ['0', 'x', high, low] =>
    (digitOf 16 high).bind fun h => (digitOf 16 low).map fun l => BitVec.ofNat 8 (16 * h + l)
  | _ => none

/-- `<addr>` (R67). -/
def addrOf : List Char → Option AddrExpr
  | ['K', 'E', 'Y', c] => (indexDigit c).map .key
  | ['D', 'I', 'N', c] => (indexDigit c).map .din
  | ['D', 'O', 'U', 'T', c] => (indexDigit c).map .dout
  | ['C', 'M', 'D'] => some .cmd
  | ['S', 'T', 'A', 'T', 'U', 'S'] => some .status
  | cs => (byteOf cs).map .num

/-- The word read so far, last character first, put in front of the words after it. -/
def flush (word : List Char) (rest : List (List Char)) : List (List Char) :=
  if word.isEmpty then rest else word.reverse :: rest

/-- The words of a line: blanks separate words, and a comma is a word of its own (assumption log 11). -/
def words : List Char → List Char → List (List Char)
  | [], word => flush word []
  | c :: cs, word =>
    if c = ' ' ∨ c = '\t' then flush word (words cs [])
    else if c = ',' then flush word ([','] :: words cs [])
    else words cs (c :: word)

/-- A list of bytes with commas between them. -/
def bytesOf : List (List Char) → Option (List Byte)
  | [w] => (byteOf w).map fun b => [b]
  | w :: [','] :: rest =>
    match byteOf w, bytesOf rest with
    | some b, some bs => some (b :: bs)
    | _, _ => none
  | _ => none

/-- Exactly eight bytes with commas between them (R68). -/
def eightBytesOf (ws : List (List Char)) : Option (List Byte) :=
  (bytesOf ws).filter fun bs => bs.length == 8

/-- A line from its words. -/
def lineOf : List (List Char) → Option Line
  | [['R', 'D'], a] => (addrOf a).map .rd
  | [['W', 'R'], a, [','], b] =>
    match addrOf a, byteOf b with
    | some addr, some byte => some (.wr addr byte)
    | _, _ => none
  | [['N', 'O', 'P']] => some .nop
  | [['D', 'E', 'C']] => some .dec
  | [['E', 'N', 'C']] => some .enc
  | [['C', 'L', 'R', 'S', 'T']] => some .clrst
  | ['L', 'D', 'K', 'E', 'Y'] :: ws => (eightBytesOf ws).map .ldkey
  | ['L', 'D', 'I', 'N'] :: ws => (eightBytesOf ws).map .ldin
  | [['R', 'D', 'O', 'U', 'T']] => some .rdout
  | [['R', 'D', 'S', 'T']] => some .rdst
  | _ => none

/-- One line of text: a comment starts with `;` (R67). A line with nothing before its comment holds no transaction;
`none` is a line that is not of the language. -/
def parseLine (text : List Char) : Option (List Line) :=
  match words (text.takeWhile (· ≠ ';')) [] with
  | [] => some []
  | ws => (lineOf ws).map fun l => [l]

/-- The lines of a text. -/
def textLines : List Char → List Char → List (List Char)
  | [], line => [line.reverse]
  | c :: cs, line => if c = '\n' then line.reverse :: textLines cs [] else textLines cs (c :: line)

/-- The lines of a program's text, `none` if one is not of the language. -/
def parseLines : List (List Char) → Option (List Line)
  | [] => some []
  | t :: ts =>
    match parseLine t, parseLines ts with
    | some l, some ls => some (l ++ ls)
    | _, _ => none

/-- The records of a program's text. -/
def assembleText (text : String) : Option (List Record) :=
  (parseLines (textLines text.toList [])).map assemble

end Sys2Proof.Asm
end

