-- ==== Sys2Proof/Safety.lean ====
section
/-! DEFINITION. What counts as a safe run, in the terms claims use: the runs the spec gives a meaning (20_memory.md
R49, 70_reset_and_hazards.md R142), and the host's obligations around a decryption (R143 to R146), as a record of
what the host has done. The block enforces none of those obligations, so nothing of the machine depends on them. -/

namespace Sys2Proof.Safety

open Machine

/-- An input the spec gives a meaning: any transaction, and a reset with no transaction issued during it (R142). -/
def clean : Input → Bool
  | .transaction _ => true
  | .reset during => during.isEmpty

/-- A state from which no step is refused: one host at most (R49) and every input clean (R142). -/
abbrev Safe (s : State) : Prop := s.hosts ≤ 1 ∧ s.inputs.all clean = true

/-- Two machines whose blocks hold the same tuple `S = (KEY, DIN, DOUT, ILL)` (10_state.md R20) and the same table
`CSTATE`. -/
abbrev SameBlock (s u : State) : Prop :=
  s.key = u.key ∧ s.din = u.din ∧ s.dout = u.dout ∧ s.ill = u.ill ∧ s.cstate = u.cstate

/-- The host's side of the bus is the same in both: what is still to be taken, what has been returned, how many
hosts. -/
abbrev SameBus (s u : State) : Prop := s.inputs = u.inputs ∧ s.replies = u.replies ∧ s.hosts = u.hosts

/-- The 16-bit value the host reads from a decrypted frame: `(frame[1] << 8) | frame[2]`, big-endian. The block itself
never forms it (20_memory.md R44). -/
def frameValue (dout : Bytes8) : BitVec 16 := (zext16 (dout.get 1) <<< 8) ||| zext16 (dout.get 2)

/-- What a host that keeps its obligations knows of its own session, which begins at a reset (assumption log 10). -/
structure HostView where
  /-- The `KEY` bytes the host has written (R143). -/
  keyWritten : List Lane
  /-- Their values. -/
  key : Bytes8
  /-- The `DIN` bytes of the present frame the host has written (R145). -/
  frameWritten : List Lane
  /-- Their values. -/
  frame : Bytes8
  /-- The present frame has been decrypted, so the next byte written to `DIN` begins another frame (R145). -/
  frameUsed : Bool
  /-- A DECRYPT of this session has been issued (R144). -/
  inSession : Bool
  /-- A `KEY` byte has been changed since the session's first DECRYPT (R144). -/
  keyMoved : Bool
  deriving DecidableEq, Repr

/-- The view at the beginning of a session: nothing written yet. -/
def HostView.fresh : HostView where
  keyWritten := []
  key := Bytes8.zero
  frameWritten := []
  frame := Bytes8.zero
  frameUsed := false
  inSession := false
  keyMoved := false

/-- After a WRITE of `v` to `KEY[i]`: loading the same byte again moves nothing (R144). -/
def HostView.wroteKey (h : HostView) (i : Lane) (v : Byte) : HostView :=
  { h with
    keyWritten := i :: h.keyWritten
    key := h.key.set i v
    keyMoved := h.keyMoved || (h.inSession && h.key.get i != v) }

/-- After a WRITE of `v` to `DIN[i]`: the first byte after a DECRYPT begins another frame (R145). -/
def HostView.wroteFrame (h : HostView) (i : Lane) (v : Byte) : HostView :=
  { h with
    frameWritten := i :: (if h.frameUsed then [] else h.frameWritten)
    frame := h.frame.set i v
    frameUsed := false }

/-- After a DECRYPT. -/
def HostView.decryptIssued (h : HostView) : HostView := { h with frameUsed := true, inSession := true }

/-- The command an instruction issues, if it issues one that decodes. -/
def commandOf : Instr → Option Command
  | .read _ => none
  | .write addr data => if addr == cmdAddr then decodeCmd8 data else none
  | .nop => some .nop
  | .decrypt => some .decrypt
  | .encrypt => some .encrypt
  | .clrstat => some .clrstat

/-- The view after an instruction. -/
def HostView.after (h : HostView) (i : Instr) : HostView :=
  match commandOf i, i with
  | some .decrypt, _ => h.decryptIssued
  | _, .write addr data =>
    match regAt addr with
    | .key l => h.wroteKey l data
    | .din l => h.wroteFrame l data
    | _ => h
  | _, _ => h

/-- The view after an input: a reset begins a session (R143). -/
def HostView.take (h : HostView) : Input → HostView
  | .transaction t => h.after (decode t)
  | .reset _ => HostView.fresh

/-- The view after a list of inputs. -/
def HostView.takeAll (h : HostView) (l : List Input) : HostView := l.foldl HostView.take h

/-- A DECRYPT keeps the host's obligations now: the whole key and a whole frame have been written, and the key has
not been changed in the session (R143, R144, R145; a short frame is one not wholly written, R146). -/
def HostView.mayDecrypt (h : HostView) : Bool :=
  lanes.all (fun i => h.keyWritten.contains i) && lanes.all (fun i => h.frameWritten.contains i) && !h.keyMoved

/-- An input keeps the host's obligations now. -/
def HostView.allows (h : HostView) : Input → Bool
  | .transaction t => commandOf (decode t) != some .decrypt || h.mayDecrypt
  | .reset during => during.isEmpty

/-- The host keeps its obligations through a list of inputs. -/
def HostView.keeps (h : HostView) : List Input → Bool
  | [] => true
  | x :: xs => h.allows x && (h.take x).keeps xs

/-- The view is true of the block: every byte the host has written of the key and of the present frame stands in its
register. -/
abbrev HostView.TrueOf (h : HostView) (s : State) : Prop :=
  (∀ i ∈ h.keyWritten, s.key.get i = h.key.get i) ∧ (∀ i ∈ h.frameWritten, s.din.get i = h.frame.get i)

end Sys2Proof.Safety
end

