-- ==== Sys2Proof/Certificates/Slice0/Obligations.lean ====
section
/-! DEFINITION. The statements for the provers. Each says what a numbered rule of the spec says of the machine; where
a clause rests on a choice of the model's own, the docstring names the assumption log's entry. Where a statement shows
`replies`, that field is how the model holds the byte a READ returns to the host (assumption log 4). Where it shows
`inputs`, that field is what the host and the platform have issued (assumption log 3). -/

open Sys2Proof Sys2Proof.Machine Sys2Proof.Safety

/-! ### Encoding (30_encoding.md) -/

/-- For every well-formed instruction, the decoder reads the encoder's record, and the record's bytes (their layout is
the model's choice, assumption log 8), as that instruction. Rests on R61, R65, R67. -/
def Obligations.DecodeOfEncodeIsTheInstruction : Prop :=
  ∀ i : Instr, i.wf = true → decode (encode i) = i ∧ decodeBytes (encodeBytes i) = .ok i

/-- For every record, what the decoder answers is well formed, and encoding it gives the record back with a READ's
`DATA` field, which decoding ignores, as 0x00. Rests on R61, R65. -/
def Obligations.EncodeOfDecodeIsTheRecord : Prop :=
  ∀ t : Record, (decode t).wf = true ∧
    encode (decode t) = if t.getLsbD 16 then t else t &&& 0x1FF00#17

/-- The decoding of a record, field by field, and of the `CMD8` byte of a WRITE to 0x18; an illegal command is
the WRITE that carries its byte (the model's spelling of it, assumption log 12). Rests on R61, R65, R66. -/
def Obligations.RecordDecodesByItsFields : Prop :=
  ∀ t : Record,
    (t.getLsbD 16 = false → decode t = .read (t.extractLsb' 8 8)) ∧
    (t.getLsbD 16 = true → t.extractLsb' 8 8 ≠ 0x18#8 → decode t = .write (t.extractLsb' 8 8) (t.extractLsb' 0 8)) ∧
    (t.getLsbD 16 = true → t.extractLsb' 8 8 = 0x18#8 →
      (t.extractLsb' 3 5 = 0b00000#5 → t.extractLsb' 0 3 = 0b000#3 → decode t = .nop) ∧
      (t.extractLsb' 3 5 = 0b00000#5 → t.extractLsb' 0 3 = 0b001#3 → decode t = .decrypt) ∧
      (t.extractLsb' 3 5 = 0b00000#5 → t.extractLsb' 0 3 = 0b010#3 → decode t = .encrypt) ∧
      (t.extractLsb' 3 5 = 0b00000#5 → t.extractLsb' 0 3 = 0b011#3 → decode t = .clrstat) ∧
      (t.extractLsb' 3 5 ≠ 0b00000#5 ∨ 4 ≤ (t.extractLsb' 0 3).toNat →
        decode t = .write 0x18 (t.extractLsb' 0 8)))

/-- R63: the four command bytes that decode, and what each is; the OP values 100 to 111 are illegal. -/
def Obligations.CommandBytesDecodeByOp : Prop :=
  decodeCmd8 0x00 = some .nop ∧ decodeCmd8 0x01 = some .decrypt ∧ decodeCmd8 0x02 = some .encrypt ∧
  decodeCmd8 0x03 = some .clrstat ∧
  ∀ c : Byte, decodeCmd8 c = none ↔ (c.extractLsb' 3 5 ≠ 0b00000#5 ∨ 4 ≤ (c.extractLsb' 0 3).toNat)

/-- R69: the worked encodings, and what each record decodes to. -/
def Obligations.WorkedEncodingsDecode : Prop :=
  decode 0x11801#17 = .decrypt ∧ encode .decrypt = 0x11801#17 ∧
  decode 0x10895#17 = .write 0x08 0x95 ∧ encode (.write 0x08 0x95) = 0x10895#17 ∧
  decode 0x01900#17 = .read 0x19 ∧ encode (.read 0x19) = 0x01900#17 ∧
  encode (.write 0x18 0x08) = 0x11808#17 ∧ weField 0x11808#17 = true ∧ addrField 0x11808#17 = 0x18#8 ∧
  rsvField (dataField 0x11808#17) = 0b00001#5 ∧ decodeCmd8 (dataField 0x11808#17) = none

/-- The number of each instruction's record: `WR a, d` is 0x10000 | a << 8 | d and `RD a` is a << 8, with no bit of an
operand dropped. Rests on R61, R63, R67. -/
def Obligations.RecordNumberOfEachInstruction : Prop :=
  (∀ a : Addr, (encode (.read a)).toNat = a.toNat * 2 ^ 8) ∧
  (∀ (a : Addr) (d : Byte), (encode (.write a d)).toNat = 2 ^ 16 + a.toNat * 2 ^ 8 + d.toNat) ∧
  (encode .nop).toNat = 0x11800 ∧ (encode .decrypt).toNat = 0x11801 ∧ (encode .encrypt).toNat = 0x11802 ∧
  (encode .clrstat).toNat = 0x11803

/-- R68: the pseudo-instructions and their expansions, in the order the rule gives. -/
def Obligations.PseudoInstructionsExpand : Prop :=
  Asm.Line.records .nop = (Asm.Line.wr .cmd 0x00).records ∧
  Asm.Line.records .dec = (Asm.Line.wr .cmd 0x01).records ∧
  Asm.Line.records .enc = (Asm.Line.wr .cmd 0x02).records ∧
  Asm.Line.records .clrst = (Asm.Line.wr .cmd 0x03).records ∧
  (∀ k0 k1 k2 k3 k4 k5 k6 k7 : Byte, (Asm.Line.ldkey [k0, k1, k2, k3, k4, k5, k6, k7]).records =
    Asm.assemble [.wr (.key 0) k0, .wr (.key 1) k1, .wr (.key 2) k2, .wr (.key 3) k3,
      .wr (.key 4) k4, .wr (.key 5) k5, .wr (.key 6) k6, .wr (.key 7) k7]) ∧
  (∀ b0 b1 b2 b3 b4 b5 b6 b7 : Byte, (Asm.Line.ldin [b0, b1, b2, b3, b4, b5, b6, b7]).records =
    Asm.assemble [.wr (.din 0) b0, .wr (.din 1) b1, .wr (.din 2) b2, .wr (.din 3) b3,
      .wr (.din 4) b4, .wr (.din 5) b5, .wr (.din 6) b6, .wr (.din 7) b7]) ∧
  Asm.Line.records .rdout = Asm.assemble [.rd (.dout 0), .rd (.dout 1), .rd (.dout 2), .rd (.dout 3),
    .rd (.dout 4), .rd (.dout 5), .rd (.dout 6), .rd (.dout 7)] ∧
  Asm.Line.records .rdst = (Asm.Line.rd .status).records

/-- The addresses the assembler's register names stand for, and the records of `RD` and `WR` lines. Rests on R43,
R67. -/
def Obligations.RegisterNamesStandForTheirAddresses : Prop :=
  (∀ i : Lane, (Asm.AddrExpr.key i).value.toNat = i.val ∧ (Asm.AddrExpr.din i).value.toNat = 0x08 + i.val ∧
    (Asm.AddrExpr.dout i).value.toNat = 0x10 + i.val) ∧
  Asm.AddrExpr.cmd.value = 0x18#8 ∧ Asm.AddrExpr.status.value = 0x19#8 ∧
  ∀ (a : Asm.AddrExpr) (d : Byte), (Asm.Line.rd a).records = [encode (.read a.value)] ∧
    (Asm.Line.wr a d).records = [encode (.write a.value d)]

/-! ### Reset, steps and stops -/

/-- R36: the value of every piece of state right after reset. -/
def Obligations.ResetLeavesTheListedValues : Prop :=
  (∀ i : Lane, State.reset.key.get i = 0x00 ∧ State.reset.din.get i = 0x00 ∧ State.reset.dout.get i = 0x00) ∧
  State.reset.ill = false ∧
  busRead State.reset 0x19 = 0x01 ∧ ckok State.reset.dout = true ∧ tmok State.reset.dout = false ∧
  valid State.reset.dout = false ∧
  busRead State.reset 0x18 = 0x00 ∧
  State.reset.cstate = Config.cstate ∧ (∀ s : State, (resetEvent s).cstate = s.cstate) ∧
  lanes.map P = [2, 4, 0, 7, 1, 6, 5, 3]

/-- R140: in a system of one host, from any state, the reset event sets every piece of the block's state to the value
of R36, so that STATUS reads 0x01, and leaves `CSTATE`. -/
def Obligations.ResetEventSetsTheBlock : Prop :=
  ∀ (s : State) (rest : List Input), s.hosts ≤ 1 → s.inputs = .reset [] :: rest →
    ∃ t, step s = .next t ∧
      (∀ i : Lane, t.key.get i = 0x00 ∧ t.din.get i = 0x00 ∧ t.dout.get i = 0x00) ∧
      t.ill = false ∧ busRead t 0x19 = 0x01 ∧ t.cstate = s.cstate

/-- When the machine stops, exactly, and why: more than one host agent, or a transaction issued while reset is
asserted. It never faults. Rests on R49, R120, R142; how the two are represented is the model's (assumption logs 6
and 7). -/
def Obligations.StopsExactlyWhereTheSpecRefuses : Prop :=
  ∀ s : State,
    (∀ f, step s ≠ .fault f) ∧
    (step s = .refused .multipleHosts ↔ 1 < s.hosts) ∧
    (step s = .refused .transactionDuringReset ↔
      s.hosts ≤ 1 ∧ ∃ t ts rest, s.inputs = .reset (t :: ts) :: rest) ∧
    (∀ r, step s = .refused r → r = .multipleHosts ∨ r = .transactionDuringReset)

/-- A step runs the decoded instruction: with a transaction oldest among the inputs, `step` is `exec` of what its
record decodes to, at the state with that input taken; and a record the encoder made of a well-formed instruction
runs that instruction. Nothing else is added: there is no program counter. Rests on R33, R49, R65. -/
def Obligations.StepRunsTheDecodedTransaction : Prop :=
  ∀ (s : State) (t : Record) (i : Instr) (rest : List Input), s.hosts ≤ 1 → s.inputs = .transaction t :: rest →
    step s = exec (decode t) { s with inputs := rest } ∧
    (i.wf = true → t = encode i → step s = exec i { s with inputs := rest })

/-- Where the host interface places a transaction, the next step runs it: for a `BUS17` row's 24 bits (the value a
17-bit record) and for a `CMD8` row's 8 bits the step is `exec` of what `decodeTableWord` reads. The reading of a word
by its length is the model's (assumption log 9). -/
def Obligations.FetchWordRunsTheTableWord : Prop :=
  ∀ (s : State) (w : Nat) (i : Instr),
    (w < 2 ^ 17 → decodeTableWord 24 w = some i →
      step (s.withFetchWord 24 w) = exec i { s with hosts := 1 }) ∧
    (w < 2 ^ 8 → decodeTableWord 8 w = some i →
      step (s.withFetchWord 8 w) = exec i { s with hosts := 1 })

/-- With no input the machine idles: the state stays as it is (the model's reading, assumption log 5; rests on R33,
R49). -/
def Obligations.NoInputLeavesTheState : Prop :=
  ∀ s : State, s.hosts ≤ 1 → s.inputs = [] → step s = .next s

/-- The machine right after reset is safe, and it is safe whatever transactions its host then issues (R141: "After reset
the block accepts any transaction"). That it runs on from there is the statement SafeStatesRunForever. The first
clause rests on the model's choice that nothing has been issued in `State.reset` (assumption log 5), and both on its
holding the number of hosts, one after reset (assumption log 6). Rests on R49, R141. -/
def Obligations.ResetStateIsSafe : Prop :=
  Safe State.reset ∧
  ∀ l : List Record, Safe { State.reset with inputs := l.map .transaction }

/-- An invariant every step keeps: from a safe state (one host, every input clean) a step gives a next state, which
is safe again, and so does any number of steps. Rests on R49, R120, R142. -/
def Obligations.SafeStatesRunForever : Prop :=
  ∀ s : State, Safe s →
    (∃ t, step s = .next t ∧ Safe t) ∧ ∀ n, ∃ t, Host.Core.run core n s = .next t ∧ Safe t

/-- R120: every transaction and every command completes; a reserved address reads 0x00 and ignores a write; a command
byte that does not decode only sets `ILL`. -/
def Obligations.EveryTransactionCompletes : Prop :=
  (∀ (i : Instr) (s : State), ∃ t, exec i s = .next t) ∧
  (∀ (a : Addr) (d : Byte) (s : State), 0x1A ≤ a.toNat →
    exec (.read a) s = .next { s with replies := s.replies ++ [0x00] } ∧ exec (.write a d) s = .next s) ∧
  (∀ (c : Byte) (s : State), decodeCmd8 c = none → exec (.write 0x18 c) s = .next { s with ill := true })

/-- Transactions take effect one at a time in the order issued. With the inputs `xs` then `ys` outstanding, the
first `xs.length` steps take exactly `xs`, leaving `ys`, and do to the block and to the replies exactly what they do
when `ys` was never issued. Where `xs` holds a reset, that `ys` is still outstanding after it is the model's choice
(assumption log 7). Rests on R47, R49. -/
def Obligations.InputsTakeEffectInIssueOrder : Prop :=
  ∀ (s : State) (xs ys : List Input), Safe s → s.inputs = xs ++ ys →
    ∃ t : State, Host.Core.run core xs.length s = .next { t with inputs := ys } ∧
      Host.Core.run core xs.length { s with inputs := xs } = .next { t with inputs := [] }

/-! ### READ and WRITE (40_host_access.md, 20_memory.md) -/

/-- R80: what a READ of each address returns; it completes at every address and changes no state of the block (the
byte returned is held as the newest reply, assumption log 4). -/
def Obligations.ReadReturnsTheAddressedByte : Prop :=
  ∀ s : State,
    (∀ i : Lane, exec (.read (0x00 + BitVec.ofNat 8 i.val)) s =
      .next { s with replies := s.replies ++ [s.key.get i] }) ∧
    (∀ i : Lane, exec (.read (0x08 + BitVec.ofNat 8 i.val)) s =
      .next { s with replies := s.replies ++ [s.din.get i] }) ∧
    (∀ i : Lane, exec (.read (0x10 + BitVec.ofNat 8 i.val)) s =
      .next { s with replies := s.replies ++ [s.dout.get i] }) ∧
    exec (.read 0x18) s = .next { s with replies := s.replies ++ [0x00] } ∧
    (∃ v : Byte, exec (.read 0x19) s = .next { s with replies := s.replies ++ [v] } ∧
      v.toNat = (ckok s.dout).toNat + 2 * (tmok s.dout).toNat + 4 * (valid s.dout).toNat + 8 * s.ill.toNat) ∧
    (∀ a : Addr, 0x1A ≤ a.toNat → exec (.read a) s = .next { s with replies := s.replies ++ [0x00] })

/-- R26, R27, R28: STATUS bit by bit, over `DOUT` as numbers, with the sum taken before the reduction; the host reads
it at 0x19, a write there is ignored, and after reset it is 0x01. -/
def Obligations.StatusBitsFollowDout : Prop :=
  (∀ (s : State) (d : Byte), ∃ v : Byte,
    exec (.read 0x19) s = .next { s with replies := s.replies ++ [v] } ∧
    (v.getLsbD 0 = true ↔
      ((s.dout.get 0).toNat + (s.dout.get 1).toNat + (s.dout.get 2).toNat) % 256 = (s.dout.get 3).toNat) ∧
    (v.getLsbD 1 = true ↔ s.dout.get 4 = 0x0D#8) ∧
    (v.getLsbD 2 = (v.getLsbD 0 && v.getLsbD 1)) ∧
    v.getLsbD 3 = s.ill ∧ v.extractLsb' 4 4 = 0#4 ∧
    exec (.write 0x19 d) s = .next s) ∧
  busRead State.reset 0x19 = 0x01

/-- Bytes 5 to 7 of `DOUT` do not affect any flag: two states whose `DOUT` agree in bytes 0 to 4 and whose `ILL` agree
read the same STATUS. Rests on R29. -/
def Obligations.FrameCheckIgnoresUnusedBytes : Prop :=
  ∀ s u : State, (∀ i : Lane, i.val ≤ 4 → s.dout.get i = u.dout.get i) → s.ill = u.ill →
    busRead s 0x19 = busRead u 0x19 ∧
    (busRead s 0x19).getLsbD 2 = ((busRead u 0x19).getLsbD 0 && (busRead u 0x19).getLsbD 1)

/-- A WRITE to `KEY[i]` or `DIN[i]` completes, stores the byte and does nothing else: the byte reads back, every other
address reads as before, and no other field changes. Rests on R21, R22, R48, R81. -/
def Obligations.WriteStoresKeyAndDinBytes : Prop :=
  ∀ (s : State) (i : Lane) (d : Byte),
    (∃ t, exec (.write (0x00 + BitVec.ofNat 8 i.val) d) s = .next t ∧
      t.key.get i = d ∧ (∀ j, j ≠ i → t.key.get j = s.key.get j) ∧
      t.din = s.din ∧ t.dout = s.dout ∧ t.ill = s.ill ∧ t.cstate = s.cstate ∧ SameBus t s ∧
      busRead t (0x00 + BitVec.ofNat 8 i.val) = d ∧
      ∀ a : Addr, a ≠ 0x00 + BitVec.ofNat 8 i.val → busRead t a = busRead s a) ∧
    (∃ t, exec (.write (0x08 + BitVec.ofNat 8 i.val) d) s = .next t ∧
      t.din.get i = d ∧ (∀ j, j ≠ i → t.din.get j = s.din.get j) ∧
      t.key = s.key ∧ t.dout = s.dout ∧ t.ill = s.ill ∧ t.cstate = s.cstate ∧ SameBus t s ∧
      busRead t (0x08 + BitVec.ofNat 8 i.val) = d ∧
      ∀ a : Addr, a ≠ 0x08 + BitVec.ofNat 8 i.val → busRead t a = busRead s a)

/-- R42: a READ of a reserved address returns 0x00 and changes nothing, a WRITE to one changes nothing. -/
def Obligations.ReservedAddressesAreInert : Prop :=
  ∀ (s : State) (a : Addr) (d : Byte), 0x1A ≤ a.toNat →
    exec (.read a) s = .next { s with replies := s.replies ++ [0x00] } ∧ exec (.write a d) s = .next s

/-- A WRITE to `DOUT[i]` or `STATUS` completes and is dropped. Rests on R23, R26, R81. -/
def Obligations.WriteToReadOnlyRegistersIsDropped : Prop :=
  ∀ (s : State) (a : Addr) (d : Byte), (0x10 ≤ a.toNat ∧ a.toNat ≤ 0x17) ∨ a.toNat = 0x19 →
    exec (.write a d) s = .next s

/-- R48: a READ has no side effect, so reading twice returns the same byte twice; a WRITE to `KEY[i]` or `DIN[i]` only
stores; a WRITE to `CMD` performs a command; any other WRITE does nothing; and repeating a WRITE leaves the state that
doing it once leaves, at every address. -/
def Obligations.ReadsArePureAndWritesRepeat : Prop :=
  ∀ s : State,
    (∀ a : Addr, ∃ v, exec (.read a) s = .next { s with replies := s.replies ++ [v] } ∧
      exec (.read a) { s with replies := s.replies ++ [v] } = .next { s with replies := s.replies ++ [v, v] } ∧
      ∀ b : Addr, busRead { s with replies := s.replies ++ [v] } b = busRead s b) ∧
    (∀ (i : Lane) (d : Byte), exec (.write (keyAddr i) d) s = .next { s with key := s.key.set i d } ∧
      exec (.write (dinAddr i) d) s = .next { s with din := s.din.set i d }) ∧
    (∀ c : Byte, exec (.write 0x18 c) s = .next (execute s c)) ∧
    (∀ (a : Addr) (d : Byte), 0x10 ≤ a.toNat → a.toNat ≠ 0x18 → exec (.write a d) s = .next s) ∧
    (∀ (a : Addr) (d : Byte) (t : State), exec (.write a d) s = .next t → exec (.write a d) t = .next t)

/-- R98: a WRITE of byte `c` to `CMD` performs exactly one of the rules of R99 to R103: the command the byte selects,
or the illegal command. -/
def Obligations.WriteToCmdPerformsTheCommand : Prop :=
  ∀ (s : State) (c : Byte),
    (c = 0x00 → exec (.write 0x18 c) s = exec .nop s) ∧
    (c = 0x01 → exec (.write 0x18 c) s = exec .decrypt s) ∧
    (c = 0x02 → exec (.write 0x18 c) s = exec .encrypt s) ∧
    (c = 0x03 → exec (.write 0x18 c) s = exec .clrstat s) ∧
    (0x04 ≤ c.toNat → exec (.write 0x18 c) s = .next { s with ill := true })

/-- The block sits at `BASE` in a host's own map: `BASE + a` reaches block address `a`, so a host access there is the
record of `RD a` or `WR a, d`. That a host address outside the 256-byte window reaches nothing of the block is the
model's choice (assumption log 2). Rests on R40, R53, R61. -/
def Obligations.BaseOffsetReachesTheBlock : Prop :=
  ∀ (base hostAddr : Nat) (a : Addr) (d : Byte),
    blockAddr base (base + a.toNat) = some a ∧
    (hostAddr < base ∨ base + 0x100 ≤ hostAddr → blockAddr base hostAddr = none) ∧
    hostRecord base (base + a.toNat) (some d) = some (encode (.write a d)) ∧
    hostRecord base (base + a.toNat) none = some (encode (.read a))

/-! ### The stages (41_cipher_ops.md section 1) -/

/-- R90, R32: stage 1 writes byte `i` to position `P[i]`; written out; and it is its own inverse, as `P` is. -/
def Obligations.ShuffleMovesByteToItsPosition : Prop :=
  lanes.map P = [2, 4, 0, 7, 1, 6, 5, 3] ∧ (∀ i : Lane, P (P i) = i) ∧
  ∀ f : Bytes8,
    (∀ i : Lane, (shuffle f).get (P i) = f.get i) ∧ (∀ j : Lane, (shuffle f).get j = f.get (P j)) ∧
    shuffle f = ⟨f.get 2, f.get 4, f.get 0, f.get 7, f.get 1, f.get 6, f.get 5, f.get 3⟩ ∧
    shuffle (shuffle f) = f

/-- R91: stage 2 is the byte-wise XOR, lane `i` with lane `i`; a key of 0x00 leaves it, a key of 0xFF complements. -/
def Obligations.KeyMixIsLaneXor : Prop :=
  ∀ (s1 key : Bytes8) (i : Lane) (k : Nat),
    ((keyMix s1 key).get i).getLsbD k = Bool.xor ((s1.get i).getLsbD k) ((key.get i).getLsbD k) ∧
    (key.get i = 0x00#8 → (keyMix s1 key).get i = s1.get i) ∧
    (key.get i = 0xFF#8 → (keyMix s1 key).get i = ~~~ (s1.get i))

/-- R92: bits 4:0 of `s3[i]` are bits 7:3 of `s2[i]`, bits 7:5 are bits 2:0 of the byte before it, cyclically; in the
64-bit view the stage is a right rotation by 3; 0x00 and 0xFF throughout are fixed points. -/
def Obligations.RotCombineRotatesRightByThree : Prop :=
  ∀ s2 : Bytes8,
    (∀ i : Lane, ((rotCombine s2).get i).extractLsb' 0 5 = (s2.get i).extractLsb' 3 5 ∧
      ((rotCombine s2).get i).extractLsb' 5 3 = (s2.get (i - 1)).extractLsb' 0 3) ∧
    (rotCombine s2).word64 = rotr64 s2.word64 3 ∧
    rotCombine ⟨0x00, 0x00, 0x00, 0x00, 0x00, 0x00, 0x00, 0x00⟩ =
      ⟨0x00, 0x00, 0x00, 0x00, 0x00, 0x00, 0x00, 0x00⟩ ∧
    rotCombine ⟨0xFF, 0xFF, 0xFF, 0xFF, 0xFF, 0xFF, 0xFF, 0xFF⟩ =
      ⟨0xFF, 0xFF, 0xFF, 0xFF, 0xFF, 0xFF, 0xFF, 0xFF⟩

/-- R93: bits 7:4 of `CTMP[i]` are bits 3:0 of `cs[i]` and bits 3:0 are bits 7:4; a byte of two equal nibbles is
unchanged. -/
def Obligations.NibbleSwapExchangesNibbles : Prop :=
  ∀ (cs : Bytes8) (i : Lane),
    ((nibbleSwap cs).get i).extractLsb' 4 4 = (cs.get i).extractLsb' 0 4 ∧
    ((nibbleSwap cs).get i).extractLsb' 0 4 = (cs.get i).extractLsb' 4 4 ∧
    ((cs.get i).extractLsb' 0 4 = (cs.get i).extractLsb' 4 4 → (nibbleSwap cs).get i = cs.get i)

/-- R94: the intermediate lies in 0x01 to 0x1FF and the result is the difference modulo 256, lane by lane. -/
def Obligations.SubtractIsModulo256 : Prop :=
  ∀ (s3 ctmp : Bytes8) (i : Lane),
    0x01 ≤ 0x100 + (s3.get i).toNat - (ctmp.get i).toNat ∧
    0x100 + (s3.get i).toNat - (ctmp.get i).toNat ≤ 0x1FF ∧
    ((subtract s3 ctmp).get i).toNat = (0x100 + (s3.get i).toNat - (ctmp.get i).toNat) % 0x100 ∧
    (((subtract s3 ctmp).get i).toNat : Int) = (((s3.get i).toNat : Int) - ((ctmp.get i).toNat : Int)) % 256

/-- `Decrypt` in one formula per lane, over numbers: with `x j = f[P[j]] XOR key[j]`, lane `i` is
`x i / 8 + 32 · (x (i−1) mod 8)` less the nibble-swapped table byte, modulo 256. Rests on R90 to R95. -/
def Obligations.DecryptLaneFormula : Prop :=
  ∀ (key f cs : Bytes8) (i : Lane),
    ((decryptBlock key f cs).get i).toNat =
      ((f.get (P i) ^^^ key.get i).toNat / 8 +
        (f.get (P (i - 1)) ^^^ key.get (i - 1)).toNat % 8 * 32 +
        (256 - ((cs.get i).toNat / 16 + (cs.get i).toNat % 16 * 16))) % 256

/-- R96: `Encrypt` step by step, over numbers: the table byte is added back, the array is rotated left by 3, the key
is mixed in and the bytes are put back; in the 64-bit view the second step is a left rotation by 3. -/
def Obligations.EncryptInvertsEachStage : Prop :=
  ∀ key p cs : Bytes8, ∃ t3 t2 : Bytes8,
    (∀ i : Lane, (t3.get i).toNat = ((p.get i).toNat + ((nibbleSwap cs).get i).toNat) % 256) ∧
    (∀ i : Lane, (t2.get i).toNat = (t3.get i).toNat * 8 % 256 + (t3.get (i + 1)).toNat / 32) ∧
    t2.word64 = rotl64 t3.word64 3 ∧
    ∀ i : Lane, (encryptBlock key p cs).get i = t2.get (P i) ^^^ key.get (P i)

/-- R97: the round trip, both ways, for every key, table and block, so that `Decrypt` is a bijection for a fixed key
and table. -/
def Obligations.DecryptAndEncryptAreInverse : Prop :=
  ∀ k cs : Bytes8,
    (∀ x : Bytes8, decryptBlock k (encryptBlock k x cs) cs = x ∧ encryptBlock k (decryptBlock k x cs) cs = x) ∧
    Function.Bijective fun x => decryptBlock k x cs

/-- R105: stages 2, 4 and 5 are lane-wise, stage 1 moves whole bytes by `P`, stage 3 reads a lane and the one before
it; so one input byte of `Decrypt` affects at most the output bytes `P[j]` and `(P[j] + 1) mod 8`. -/
def Obligations.OneInputByteReachesTwoLanes : Prop :=
  (∀ (a b k l : Bytes8) (i : Lane), a.get i = b.get i → k.get i = l.get i →
    (keyMix a k).get i = (keyMix b l).get i ∧ (nibbleSwap a).get i = (nibbleSwap b).get i ∧
    (subtract a k).get i = (subtract b l).get i) ∧
  (∀ (a : Bytes8) (i : Lane), (shuffle a).get (P i) = a.get i) ∧
  (∀ (a b : Bytes8) (i : Lane), a.get i = b.get i → a.get (i - 1) = b.get (i - 1) →
    (rotCombine a).get i = (rotCombine b).get i) ∧
  ∀ (key f g cs : Bytes8) (j : Lane), (∀ i, i ≠ j → f.get i = g.get i) →
    ∀ i, i ≠ P j → i ≠ P j + 1 → (decryptBlock key f cs).get i = (decryptBlock key g cs).get i

/-- Two keys that decrypt one block alike under one table are the same key: "a write to `KEY` between two DECRYPTs of
the same `DIN` changes the second result". Rests on R81, R91, R95. -/
def Obligations.AnotherKeyGivesAnotherResult : Prop :=
  ∀ (s t u v : State), exec .decrypt s = .next u → exec .decrypt t = .next v →
    s.din = t.din → s.cstate = t.cstate → (u.dout = v.dout ↔ s.key = t.key)

/-! ### The commands (41_cipher_ops.md section 3) -/

/-- R99: NOP completes and changes nothing, `ILL` included. -/
def Obligations.NopChangesNothing : Prop :=
  ∀ s : State, exec .nop s = .next s

/-- DECRYPT completes in every state: `DOUT` becomes the five stages over `KEY`, `DIN` and `CSTATE`; `KEY`, `DIN` and
`ILL` are unchanged and the flags are those of the new `DOUT`; every address but `DOUT` and `STATUS` reads as before;
a second DECRYPT leaves the same state; an all-zero key, table and block give an all-zero `DOUT` and STATUS 0x01 with
`ILL` clear. Rests on R95, R100, R106. -/
def Obligations.DecryptReplacesDout : Prop :=
  ∀ s : State, ∃ t, exec .decrypt s = .next t ∧
    t.dout = subtract (rotCombine (keyMix (shuffle s.din) s.key)) (nibbleSwap s.cstate) ∧
    t.key = s.key ∧ t.din = s.din ∧ t.ill = s.ill ∧ t.cstate = s.cstate ∧ SameBus t s ∧
    (∀ i : Lane, busRead t (0x10 + BitVec.ofNat 8 i.val) = t.dout.get i) ∧
    busRead t 0x19 = statusByte t.dout s.ill ∧
    (∀ a : Addr, a.toNat < 0x10 ∨ a.toNat = 0x18 ∨ 0x1A ≤ a.toNat → busRead t a = busRead s a) ∧
    exec .decrypt t = .next t ∧
    (s.key = Bytes8.zero → s.cstate = Bytes8.zero → s.din = Bytes8.zero → s.ill = false →
      t.dout = Bytes8.zero ∧ busRead t 0x19 = 0x01)

/-- R101: ENCRYPT completes in every state: `DOUT` becomes `Encrypt` of `DIN`; `KEY`, `DIN` and `ILL` are unchanged
and the flags are those of the new `DOUT`; every address but `DOUT` and `STATUS` reads as before; a second ENCRYPT
leaves the same state; and ENCRYPT of what a DECRYPT produced gives back the DECRYPT's input. -/
def Obligations.EncryptReplacesDout : Prop :=
  ∀ s : State, ∃ t, exec .encrypt s = .next t ∧
    t.dout = encryptBlock s.key s.din s.cstate ∧
    t.key = s.key ∧ t.din = s.din ∧ t.ill = s.ill ∧ t.cstate = s.cstate ∧ SameBus t s ∧
    (∀ i : Lane, busRead t (0x10 + BitVec.ofNat 8 i.val) = t.dout.get i) ∧
    busRead t 0x19 = statusByte t.dout s.ill ∧
    (∀ a : Addr, a.toNat < 0x10 ∨ a.toNat = 0x18 ∨ 0x1A ≤ a.toNat → busRead t a = busRead s a) ∧
    exec .encrypt t = .next t ∧
    (∀ u v : State, exec .decrypt u = .next v → s.key = u.key → s.cstate = u.cstate → s.din = v.dout →
      t.dout = u.din)

/-- The host's round trip: ENCRYPT, `DOUT` copied into `DIN`, DECRYPT gives back the block encrypted. Rests on R97,
R100, R101. -/
def Obligations.EncryptThenDecryptRestoresTheBlock : Prop :=
  ∀ s : State, ∃ t u, exec .encrypt s = .next t ∧ exec .decrypt { t with din := t.dout } = .next u ∧
    u.dout = s.din ∧ u.key = s.key ∧ u.ill = s.ill

/-- R102: CLRSTAT completes, clears `ILL` and nothing else; CKOK, TMOK and VALID keep their values; with `ILL` already
0 nothing changes. -/
def Obligations.ClrstatClearsIllOnly : Prop :=
  ∀ s : State,
    exec .clrstat s = .next { s with ill := false } ∧
    (∀ a : Addr, a ≠ 0x19 → busRead { s with ill := false } a = busRead s a) ∧
    busRead { s with ill := false } 0x19 = busRead s 0x19 &&& 0x07 ∧
    (s.ill = false → exec .clrstat s = .next s)

/-- R103: an illegal command sets `ILL` and nothing else, and `ILL` stays 1 under further illegal commands, NOPs,
DECRYPTs and ENCRYPTs; CKOK, TMOK and VALID keep their values under it. -/
def Obligations.IllegalCommandSetsIllOnly : Prop :=
  ∀ (s : State) (c : Byte), 0x04 ≤ c.toNat →
    exec (.write 0x18 c) s = .next { s with ill := true } ∧
    (∀ a : Addr, a ≠ 0x19 → busRead { s with ill := true } a = busRead s a) ∧
    busRead { s with ill := true } 0x19 = busRead s 0x19 ||| 0x08 ∧
    (s.ill = true → ∀ i t, i = .nop ∨ i = .decrypt ∨ i = .encrypt ∨ i = .write 0x18 c →
      exec i s = .next t → t.ill = true)

/-- R107: a command's result depends only on the state and `CSTATE`, and performing the same command twice leaves the
state that performing it once leaves: the four commands, and every byte written to `CMD`, illegal ones among them. -/
def Obligations.CommandsAreIdempotent : Prop :=
  ∀ (s : State) (i : Instr), (i = .nop ∨ i = .decrypt ∨ i = .encrypt ∨ i = .clrstat ∨ ∃ c, i = .write 0x18 c) →
    ∃ t, exec i s = .next t ∧ exec i t = .next t ∧
      ∀ u v, SameBlock s u → exec i u = .next v → SameBlock t v

/-! ### Whole-machine rules -/

/-- R31: `ILL` is set to 1 by a command byte that does not decode, cleared by CLRSTAT and by reset, and read through
STATUS bit 3; no other event changes it; after reset it is 0. -/
def Obligations.IllChangesOnlyByIllegalClrstatReset : Prop :=
  State.reset.ill = false ∧
  (∀ s : State, (busRead s 0x19).getLsbD 3 = s.ill ∧ (resetEvent s).ill = false ∧
    (∃ t, exec .clrstat s = .next t ∧ t.ill = false) ∧
    ∀ c : Byte, decodeCmd8 c = none → ∃ t, exec (.write 0x18 c) s = .next t ∧ t.ill = true) ∧
  ∀ (s t : State) (x : Input) (rest : List Input), s.inputs = x :: rest → step s = .next t → t.ill ≠ s.ill →
    (s.ill = false ∧ ∃ c : Byte, decodeCmd8 c = none ∧ x = .transaction (writeRecord 0x18 c)) ∨
    (s.ill = true ∧ (x = .transaction (writeRecord 0x18 0x03) ∨ x = .reset []))

/-- `DOUT` is written only by DECRYPT and ENCRYPT (and by reset): a step that changes it took one of those. Rests on
R23, R140. -/
def Obligations.DoutChangesOnlyByDecryptEncryptReset : Prop :=
  ∀ (s t : State) (x : Input) (rest : List Input), s.inputs = x :: rest → step s = .next t → t.dout ≠ s.dout →
    x = .transaction (writeRecord 0x18 0x01) ∨ x = .transaction (writeRecord 0x18 0x02) ∨ x = .reset []

/-- No command writes `KEY` or `DIN`: a step that changes a byte of one took a WRITE to that byte's address, of the
value it then holds, or a reset. Rests on R21, R22, R140. -/
def Obligations.KeyAndDinChangeOnlyByTheirWrites : Prop :=
  ∀ (s t : State) (x : Input) (rest : List Input) (i : Lane), s.inputs = x :: rest → step s = .next t →
    (t.key.get i ≠ s.key.get i →
      x = .transaction (writeRecord (0x00 + BitVec.ofNat 8 i.val) (t.key.get i)) ∨ x = .reset []) ∧
    (t.din.get i ≠ s.din.get i →
      x = .transaction (writeRecord (0x08 + BitVec.ofNat 8 i.val) (t.din.get i)) ∨ x = .reset [])

/-- R30: the cipher-state table is immutable and has no address: no command, no reset and no run of steps changes it,
and no address reads it. -/
def Obligations.CipherStateTableIsImmutable : Prop :=
  (∀ (s : State) (cs : Bytes8) (a : Addr), busRead { s with cstate := cs } a = busRead s a) ∧
  (∀ (s t : State) (i : Instr), exec i s = .next t → t.cstate = s.cstate) ∧
  (∀ s : State, (resetEvent s).cstate = s.cstate) ∧
  ∀ (s t : State) (n : Nat), Host.Core.run core n s = .next t → t.cstate = s.cstate

/-- There is no hidden state: two machines whose blocks agree in `KEY`, `DIN`, `DOUT`, `ILL` and `CSTATE`, given the
same inputs, return the same bytes and agree again, after any number of steps, whatever either returned before. Rests
on R20, R34, R107. -/
def Obligations.BehaviourDependsOnlyOnTheBlock : Prop :=
  ∀ (s u s' : State) (n : Nat), SameBlock s u → s.inputs = u.inputs → s.hosts = u.hosts →
    Host.Core.run core n s = .next s' →
    ∃ u' l, Host.Core.run core n u = .next u' ∧ SameBlock s' u' ∧ s'.inputs = u'.inputs ∧
      s'.replies = s.replies ++ l ∧ u'.replies = u.replies ++ l

/-- A command is complete before the next transaction: a READ of `DOUT[i]` issued right after the WRITE of DECRYPT or
ENCRYPT to `CMD` returns the command's result. Rests on R47, R50, R147. -/
def Obligations.ReadAfterCommandSeesItsResult : Prop :=
  ∀ (s : State) (i : Lane) (rest : List Input), s.hosts ≤ 1 →
    (s.inputs = .transaction 0x11801#17 :: .transaction (readRecord (0x10 + BitVec.ofNat 8 i.val)) :: rest →
      ∃ t, Host.Core.run core 2 s = .next t ∧ t.inputs = rest ∧
        t.replies = s.replies ++ [(decryptBlock s.key s.din s.cstate).get i]) ∧
    (s.inputs = .transaction 0x11802#17 :: .transaction (readRecord (0x10 + BitVec.ofNat 8 i.val)) :: rest →
      ∃ t, Host.Core.run core 2 s = .next t ∧ t.inputs = rest ∧
        t.replies = s.replies ++ [(encryptBlock s.key s.din s.cstate).get i])

/-! ### The host's obligations (70_reset_and_hazards.md section 2) -/

/-- The host reads `DOUT[1]` as the high byte and `DOUT[2]` as the low byte of the frame's value. Rests on R44. -/
def Obligations.FrameValueIsBigEndian : Prop :=
  ∀ dout : Bytes8, (frameValue dout).toNat = (dout.get 1).toNat * 256 + (dout.get 2).toNat

/-- An invariant every step keeps: if what the host has written of the key and of its present frame stands in the
registers, it does after the next input too. The host's view is the model's reading of its obligations (assumption
log 10). Rests on R21, R22, R143, R145. -/
def Obligations.HostViewStaysTrue : Prop :=
  ∀ (h : HostView) (s t : State) (x : Input) (rest : List Input),
    h.TrueOf s → s.inputs = x :: rest → step s = .next t → (h.take x).TrueOf t

/-- From any state at all, a host that keeps its obligations through a list of inputs ending with a DECRYPT finds in
`DOUT` the decryption of the very frame it wrote last under the very key it loaded: no byte of an older frame or key
is mixed in. Rests on R100, R143, R144, R145; the obligations are as the model reads them (assumption log 10), and
where the list holds a reset, that the inputs after it are still taken is the model's choice (assumption log 7). -/
def Obligations.ObligationsKeptGiveTheFrameDecrypted : Prop :=
  ∀ (s : State) (xs ys : List Input) (t : Record), s.hosts ≤ 1 →
    commandOf (decode t) = some .decrypt → HostView.fresh.keeps (xs ++ [.transaction t]) = true →
    s.inputs = xs ++ .transaction t :: ys →
    ∃ u, Host.Core.run core (xs.length + 1) s = .next u ∧ u.inputs = ys ∧
      u.dout = decryptBlock (HostView.fresh.takeAll xs).key (HostView.fresh.takeAll xs).frame s.cstate

/-- Key constancy: in one session, between two DECRYPTs of a host that keeps its obligations, the loaded key is the
same. Rests on R144; the obligations as the model reads them, assumption log 10. -/
def Obligations.SessionKeyIsConstant : Prop :=
  ∀ (xs ys : List Input) (t u : Record),
    HostView.fresh.keeps (xs ++ .transaction t :: (ys ++ [.transaction u])) = true →
    commandOf (decode t) = some .decrypt → commandOf (decode u) = some .decrypt →
    (∀ d, Input.reset d ∉ ys) →
    (HostView.fresh.takeAll (xs ++ .transaction t :: ys)).key = (HostView.fresh.takeAll xs).key
end

