-- ==== Sys2Proof/Laws/Encoding.lean ====
section
/-! SUPPORT. The fields of the encoder's records, and what the decoder does with each. -/

namespace Sys2Proof

@[simp] theorem weField_writeRecord (a : Addr) (d : Byte) : weField (writeRecord a d) = true := by
  simp [weField, writeRecord]

@[simp] theorem weField_readRecord (a : Addr) : weField (readRecord a) = false := by
  simp [weField, readRecord]

@[simp] theorem addrField_writeRecord (a : Addr) (d : Byte) : addrField (writeRecord a d) = a := by
  apply BitVec.eq_of_getLsbD_eq
  intro i hi
  simp only [addrField, writeRecord, BitVec.getLsbD_extractLsb', BitVec.getLsbD_or, BitVec.getLsbD_shiftLeft,
    BitVec.getLsbD_setWidth]
  interval_cases i <;> simp

@[simp] theorem dataField_writeRecord (a : Addr) (d : Byte) : dataField (writeRecord a d) = d := by
  apply BitVec.eq_of_getLsbD_eq
  intro i hi
  simp only [dataField, writeRecord, BitVec.getLsbD_extractLsb', BitVec.getLsbD_or, BitVec.getLsbD_shiftLeft,
    BitVec.getLsbD_setWidth]
  interval_cases i <;> simp

@[simp] theorem addrField_readRecord (a : Addr) : addrField (readRecord a) = a := by
  apply BitVec.eq_of_getLsbD_eq
  intro i hi
  simp only [addrField, readRecord, BitVec.getLsbD_extractLsb', BitVec.getLsbD_shiftLeft, BitVec.getLsbD_setWidth]
  interval_cases i <;> simp

@[simp] theorem dataField_readRecord (a : Addr) : dataField (readRecord a) = 0 := by
  apply BitVec.eq_of_getLsbD_eq
  intro i hi
  simp only [dataField, readRecord, BitVec.getLsbD_extractLsb', BitVec.getLsbD_shiftLeft, BitVec.getLsbD_setWidth]
  interval_cases i <;> simp

/-- A record with `WE = 1` is the WRITE of its own fields. -/
theorem writeRecord_fields (t : Record) (h : weField t = true) : writeRecord (addrField t) (dataField t) = t := by
  have h' : t[16] = true := h
  apply BitVec.eq_of_getLsbD_eq
  intro i hi
  simp only [dataField, addrField, writeRecord, BitVec.getLsbD_extractLsb', BitVec.getLsbD_or,
    BitVec.getLsbD_shiftLeft, BitVec.getLsbD_setWidth]
  interval_cases i <;> simp [h']

@[simp] theorem decode_readRecord (a : Addr) : decode (readRecord a) = .read a := by simp [decode]

@[simp] theorem decode_writeRecord (a : Addr) (d : Byte) : decode (writeRecord a d) = decodeWrite a d := by
  simp [decode]

/-- A WRITE elsewhere than to `CMD` is itself. -/
theorem decodeWrite_of_ne {a : Addr} (d : Byte) (h : a ≠ cmdAddr) : decodeWrite a d = .write a d := by
  simp [decodeWrite, h]

/-- A WRITE to `CMD` of a byte that decodes is the command. -/
theorem decodeWrite_command {d : Byte} {c : Command} (h : decodeCmd8 d = some c) :
    decodeWrite cmdAddr d = c.toInstr := by
  simp [decodeWrite, h]

/-- A WRITE to `CMD` of an illegal byte is itself. -/
theorem decodeWrite_illegal {d : Byte} (h : decodeCmd8 d = none) : decodeWrite cmdAddr d = .write cmdAddr d := by
  simp [decodeWrite, h]

/-- The command bytes, by value (R63). -/
theorem decodeCmd8_cases (c : Byte) :
    (c = 0x00 ∧ decodeCmd8 c = some .nop) ∨ (c = 0x01 ∧ decodeCmd8 c = some .decrypt) ∨
    (c = 0x02 ∧ decodeCmd8 c = some .encrypt) ∨ (c = 0x03 ∧ decodeCmd8 c = some .clrstat) ∨
    (0x04 ≤ c.toNat ∧ decodeCmd8 c = none) := by
  revert c; decide

/-- The three bytes of a record hold that record. -/
theorem recordOfBytes_fields (t : Record) :
    recordOfBytes [dataField t, addrField t, (t.extractLsb' 16 1).setWidth 8] = .ok t := by
  have h : ((t.extractLsb' 16 1).setWidth 8 : Byte).toNat ≤ 1 := by simp; omega
  simp only [recordOfBytes, h, if_true]
  congr 1
  apply BitVec.eq_of_getLsbD_eq
  intro i hi
  simp only [dataField, addrField, BitVec.getLsbD_extractLsb', BitVec.getLsbD_or, BitVec.getLsbD_shiftLeft,
    BitVec.getLsbD_setWidth]
  interval_cases i <;> simp

end Sys2Proof
end

