-- ==== Sys2Proof/Laws/Lanes.lean ====
section
/-! SUPPORT. Small lemmas of the eight-byte arrays and of the stages. -/

namespace Sys2Proof

theorem Bytes8.ext_get {a b : Bytes8} (h : ∀ i, a.get i = b.get i) : a = b := by
  cases a; cases b
  have h0 := h 0; have h1 := h 1; have h2 := h 2; have h3 := h 3
  have h4 := h 4; have h5 := h 5; have h6 := h 6; have h7 := h 7
  simp only [Bytes8.get] at h0 h1 h2 h3 h4 h5 h6 h7
  subst h0 h1 h2 h3 h4 h5 h6 h7
  rfl

@[simp] theorem Bytes8.get_ofFn (f : Lane → Byte) (i : Lane) : (Bytes8.ofFn f).get i = f i := by
  fin_cases i <;> rfl

@[simp] theorem Bytes8.get_zero (i : Lane) : Bytes8.zero.get i = 0 := by fin_cases i <;> rfl

@[simp] theorem Bytes8.get_set_same (a : Bytes8) (i : Lane) (v : Byte) : (a.set i v).get i = v := by
  fin_cases i <;> rfl

theorem Bytes8.get_set_other (a : Bytes8) {i j : Lane} (v : Byte) (h : j ≠ i) : (a.set i v).get j = a.get j := by
  revert h; fin_cases i <;> fin_cases j <;> simp [Bytes8.set, Bytes8.get]

theorem Bytes8.get_set (a : Bytes8) (i j : Lane) (v : Byte) :
    (a.set i v).get j = if j = i then v else a.get j := by
  split
  · next h => rw [h, Bytes8.get_set_same]
  · next h => exact Bytes8.get_set_other a v h

@[simp] theorem Bytes8.set_set (a : Bytes8) (i : Lane) (v : Byte) : (a.set i v).set i v = a.set i v := by
  fin_cases i <;> rfl

@[simp] theorem P_P (i : Lane) : P (P i) = i := by revert i; decide

@[simp] theorem prevLane_nextLane (i : Lane) : prevLane (nextLane i) = i := by revert i; decide

@[simp] theorem nextLane_prevLane (i : Lane) : nextLane (prevLane i) = i := by revert i; decide

/-- The scatter of R90 written as a gather, since P is its own inverse. -/
theorem shuffle_get (f : Bytes8) (j : Lane) : (shuffle f).get j = f.get (P j) := by
  fin_cases j <;> rfl

@[simp] theorem keyMix_get (s1 key : Bytes8) (i : Lane) : (keyMix s1 key).get i = s1.get i ^^^ key.get i := by
  simp [keyMix]

@[simp] theorem unshuffle_get (t1 : Bytes8) (i : Lane) : (unshuffle t1).get i = t1.get (P i) := by
  simp [unshuffle]

theorem trunc8_toNat (v : BitVec 16) : (trunc8 v).toNat = v.toNat % 256 := by
  have h (n : Nat) : n &&& 255 = n % 256 := Nat.and_two_pow_sub_one_eq_mod n 8
  simp [trunc8, h]

theorem prevLane_eq (i : Lane) : prevLane i = i - 1 := by revert i; decide

theorem nextLane_eq (i : Lane) : nextLane i = i + 1 := by revert i; decide

/-- An OR whose right side has only bits from `n` up, and whose left side none of them, is a sum. -/
theorem or_eq_add_of_lt {x n : Nat} (y : Nat) (h : x < 2 ^ n) : x ||| y * 2 ^ n = x + y * 2 ^ n := by
  have hor := Nat.two_pow_add_eq_or_of_lt h y
  rw [Nat.mul_comm, Nat.or_comm] at hor
  rw [← hor, Nat.add_comm]

/-- Stage 3 over numbers: the byte shifted right by 3, with the low 3 bits of the byte before it on top (R92). -/
theorem rotCombine_toNat (s2 : Bytes8) (i : Lane) :
    ((rotCombine s2).get i).toNat = (s2.get i).toNat / 8 + (s2.get (i - 1)).toNat % 8 * 32 := by
  have hx := (s2.get i).isLt
  have hy := (s2.get (i - 1)).isLt
  have hor := or_eq_add_of_lt (x := (s2.get i).toNat / 2 ^ 3) (n := 5) (s2.get (i - 1)).toNat (by omega)
  simp only [rotCombine, Bytes8.get_ofFn, trunc8_toNat, zext16, BitVec.toNat_or, BitVec.toNat_shiftLeft,
    BitVec.toNat_setWidth, BitVec.toNat_ushiftRight, Nat.shiftLeft_eq, Nat.shiftRight_eq_div_pow, prevLane_eq]
  rw [Nat.mod_eq_of_lt (a := (s2.get i).toNat / 2 ^ 3) (by omega),
    Nat.mod_eq_of_lt (a := (s2.get (i - 1)).toNat) (by omega), Nat.mod_eq_of_lt (a := _ * 2 ^ 5) (by omega), hor]
  omega

/-- Stage 4 over numbers (R93). -/
theorem nibbleSwap_toNat (cs : Bytes8) (i : Lane) :
    ((nibbleSwap cs).get i).toNat = (cs.get i).toNat / 16 + (cs.get i).toNat % 16 * 16 := by
  have hx := (cs.get i).isLt
  have hor := or_eq_add_of_lt (x := (cs.get i).toNat / 2 ^ 4) (n := 4) (cs.get i).toNat (by omega)
  simp only [nibbleSwap, Bytes8.get_ofFn, trunc8_toNat, zext16, BitVec.toNat_or, BitVec.toNat_shiftLeft,
    BitVec.toNat_setWidth, BitVec.toNat_ushiftRight, Nat.shiftLeft_eq, Nat.shiftRight_eq_div_pow]
  rw [Nat.mod_eq_of_lt (a := (cs.get i).toNat / 2 ^ 4) (by omega),
    Nat.mod_eq_of_lt (a := (cs.get i).toNat) (by omega), Nat.mod_eq_of_lt (a := _ * 2 ^ 4) (by omega), hor]
  omega

/-- Stage 5 over numbers (R94). -/
theorem subtract_toNat (s3 ctmp : Bytes8) (i : Lane) :
    ((subtract s3 ctmp).get i).toNat = (0x100 + (s3.get i).toNat - (ctmp.get i).toNat) % 0x100 := by
  have hx := (s3.get i).isLt
  have hy := (ctmp.get i).isLt
  simp only [subtract, Bytes8.get_ofFn, trunc8_toNat, zext16, BitVec.toNat_sub, BitVec.toNat_add,
    BitVec.toNat_setWidth, BitVec.toNat_ofNat]
  omega

/-- The inverse of stage 5 over numbers (R96). -/
theorem addBack_toNat (p ctmp : Bytes8) (i : Lane) :
    ((addBack p ctmp).get i).toNat = ((p.get i).toNat + (ctmp.get i).toNat) % 0x100 := by
  have hx := (p.get i).isLt
  have hy := (ctmp.get i).isLt
  simp only [addBack, Bytes8.get_ofFn, trunc8_toNat, zext16, BitVec.toNat_add, BitVec.toNat_setWidth]
  omega

/-- The inverse of stage 3 over numbers: the low 5 bits move up, with the top 3 bits of the byte after it below
(R96). -/
theorem rotSplit_toNat (t3 : Bytes8) (i : Lane) :
    ((rotSplit t3).get i).toNat = (t3.get i).toNat * 8 % 256 + (t3.get (i + 1)).toNat / 32 := by
  have hx := (t3.get i).isLt
  have hy := (t3.get (i + 1)).isLt
  have hor := or_eq_add_of_lt (x := (t3.get (i + 1)).toNat / 2 ^ 5) (n := 3) (t3.get i).toNat (by omega)
  simp only [rotSplit, Bytes8.get_ofFn, trunc8_toNat, zext16, BitVec.toNat_or, BitVec.toNat_shiftLeft,
    BitVec.toNat_setWidth, BitVec.toNat_ushiftRight, Nat.shiftLeft_eq, Nat.shiftRight_eq_div_pow, nextLane_eq]
  rw [Nat.mod_eq_of_lt (a := (t3.get i).toNat) (by omega), Nat.mod_eq_of_lt (a := _ * 2 ^ 3) (by omega),
    Nat.mod_eq_of_lt (a := (t3.get (i + 1)).toNat / 2 ^ 5) (by omega), Nat.or_comm, hor]
  omega

end Sys2Proof
end

