-- ==== Sys2Proof/Laws/State.lean ====
section
/-! SUPPORT. One lemma per field of State per update, each true by rfl. -/

namespace Sys2Proof.Machine

@[simp] theorem State.setKeyByte_key (s : State) (i : Lane) (v : Byte) : (s.setKeyByte i v).key = s.key.set i v := rfl
@[simp] theorem State.setKeyByte_din (s : State) (i : Lane) (v : Byte) : (s.setKeyByte i v).din = s.din := rfl
@[simp] theorem State.setKeyByte_dout (s : State) (i : Lane) (v : Byte) : (s.setKeyByte i v).dout = s.dout := rfl
@[simp] theorem State.setKeyByte_ill (s : State) (i : Lane) (v : Byte) : (s.setKeyByte i v).ill = s.ill := rfl
@[simp] theorem State.setKeyByte_cstate (s : State) (i : Lane) (v : Byte) : (s.setKeyByte i v).cstate = s.cstate := rfl
@[simp] theorem State.setKeyByte_inputs (s : State) (i : Lane) (v : Byte) : (s.setKeyByte i v).inputs = s.inputs := rfl
@[simp] theorem State.setKeyByte_replies (s : State) (i : Lane) (v : Byte) : (s.setKeyByte i v).replies = s.replies := rfl
@[simp] theorem State.setKeyByte_hosts (s : State) (i : Lane) (v : Byte) : (s.setKeyByte i v).hosts = s.hosts := rfl

@[simp] theorem State.setDinByte_key (s : State) (i : Lane) (v : Byte) : (s.setDinByte i v).key = s.key := rfl
@[simp] theorem State.setDinByte_din (s : State) (i : Lane) (v : Byte) : (s.setDinByte i v).din = s.din.set i v := rfl
@[simp] theorem State.setDinByte_dout (s : State) (i : Lane) (v : Byte) : (s.setDinByte i v).dout = s.dout := rfl
@[simp] theorem State.setDinByte_ill (s : State) (i : Lane) (v : Byte) : (s.setDinByte i v).ill = s.ill := rfl
@[simp] theorem State.setDinByte_cstate (s : State) (i : Lane) (v : Byte) : (s.setDinByte i v).cstate = s.cstate := rfl
@[simp] theorem State.setDinByte_inputs (s : State) (i : Lane) (v : Byte) : (s.setDinByte i v).inputs = s.inputs := rfl
@[simp] theorem State.setDinByte_replies (s : State) (i : Lane) (v : Byte) : (s.setDinByte i v).replies = s.replies := rfl
@[simp] theorem State.setDinByte_hosts (s : State) (i : Lane) (v : Byte) : (s.setDinByte i v).hosts = s.hosts := rfl

@[simp] theorem State.setDout_key (s : State) (b : Bytes8) : (s.setDout b).key = s.key := rfl
@[simp] theorem State.setDout_din (s : State) (b : Bytes8) : (s.setDout b).din = s.din := rfl
@[simp] theorem State.setDout_dout (s : State) (b : Bytes8) : (s.setDout b).dout = b := rfl
@[simp] theorem State.setDout_ill (s : State) (b : Bytes8) : (s.setDout b).ill = s.ill := rfl
@[simp] theorem State.setDout_cstate (s : State) (b : Bytes8) : (s.setDout b).cstate = s.cstate := rfl
@[simp] theorem State.setDout_inputs (s : State) (b : Bytes8) : (s.setDout b).inputs = s.inputs := rfl
@[simp] theorem State.setDout_replies (s : State) (b : Bytes8) : (s.setDout b).replies = s.replies := rfl
@[simp] theorem State.setDout_hosts (s : State) (b : Bytes8) : (s.setDout b).hosts = s.hosts := rfl

@[simp] theorem State.setIll_key (s : State) (b : Bool) : (s.setIll b).key = s.key := rfl
@[simp] theorem State.setIll_din (s : State) (b : Bool) : (s.setIll b).din = s.din := rfl
@[simp] theorem State.setIll_dout (s : State) (b : Bool) : (s.setIll b).dout = s.dout := rfl
@[simp] theorem State.setIll_ill (s : State) (b : Bool) : (s.setIll b).ill = b := rfl
@[simp] theorem State.setIll_cstate (s : State) (b : Bool) : (s.setIll b).cstate = s.cstate := rfl
@[simp] theorem State.setIll_inputs (s : State) (b : Bool) : (s.setIll b).inputs = s.inputs := rfl
@[simp] theorem State.setIll_replies (s : State) (b : Bool) : (s.setIll b).replies = s.replies := rfl
@[simp] theorem State.setIll_hosts (s : State) (b : Bool) : (s.setIll b).hosts = s.hosts := rfl

@[simp] theorem State.pushReply_key (s : State) (v : Byte) : (s.pushReply v).key = s.key := rfl
@[simp] theorem State.pushReply_din (s : State) (v : Byte) : (s.pushReply v).din = s.din := rfl
@[simp] theorem State.pushReply_dout (s : State) (v : Byte) : (s.pushReply v).dout = s.dout := rfl
@[simp] theorem State.pushReply_ill (s : State) (v : Byte) : (s.pushReply v).ill = s.ill := rfl
@[simp] theorem State.pushReply_cstate (s : State) (v : Byte) : (s.pushReply v).cstate = s.cstate := rfl
@[simp] theorem State.pushReply_inputs (s : State) (v : Byte) : (s.pushReply v).inputs = s.inputs := rfl
@[simp] theorem State.pushReply_replies (s : State) (v : Byte) : (s.pushReply v).replies = s.replies ++ [v] := rfl
@[simp] theorem State.pushReply_hosts (s : State) (v : Byte) : (s.pushReply v).hosts = s.hosts := rfl

@[simp] theorem State.setInputs_key (s : State) (l : List Input) : (s.setInputs l).key = s.key := rfl
@[simp] theorem State.setInputs_din (s : State) (l : List Input) : (s.setInputs l).din = s.din := rfl
@[simp] theorem State.setInputs_dout (s : State) (l : List Input) : (s.setInputs l).dout = s.dout := rfl
@[simp] theorem State.setInputs_ill (s : State) (l : List Input) : (s.setInputs l).ill = s.ill := rfl
@[simp] theorem State.setInputs_cstate (s : State) (l : List Input) : (s.setInputs l).cstate = s.cstate := rfl
@[simp] theorem State.setInputs_inputs (s : State) (l : List Input) : (s.setInputs l).inputs = l := rfl
@[simp] theorem State.setInputs_replies (s : State) (l : List Input) : (s.setInputs l).replies = s.replies := rfl
@[simp] theorem State.setInputs_hosts (s : State) (l : List Input) : (s.setInputs l).hosts = s.hosts := rfl

@[simp] theorem resetEvent_key (s : State) : (resetEvent s).key = Bytes8.zero := rfl
@[simp] theorem resetEvent_din (s : State) : (resetEvent s).din = Bytes8.zero := rfl
@[simp] theorem resetEvent_dout (s : State) : (resetEvent s).dout = Bytes8.zero := rfl
@[simp] theorem resetEvent_ill (s : State) : (resetEvent s).ill = false := rfl
@[simp] theorem resetEvent_cstate (s : State) : (resetEvent s).cstate = s.cstate := rfl
@[simp] theorem resetEvent_inputs (s : State) : (resetEvent s).inputs = s.inputs := rfl
@[simp] theorem resetEvent_replies (s : State) : (resetEvent s).replies = s.replies := rfl
@[simp] theorem resetEvent_hosts (s : State) : (resetEvent s).hosts = s.hosts := rfl

end Sys2Proof.Machine
end

