-- ==== Sys2Proof/Laws/Ops.lean ====
section
/-! SUPPORT. For each shared operation, what it can do, said once. -/

namespace Sys2Proof.Machine

/-! ### Addresses -/

theorem regAt_keyAddr (i : Lane) : regAt (0x00 + BitVec.ofNat 8 i.val) = .key i := by revert i; decide

theorem regAt_dinAddr (i : Lane) : regAt (0x08 + BitVec.ofNat 8 i.val) = .din i := by revert i; decide

theorem regAt_doutAddr (i : Lane) : regAt (0x10 + BitVec.ofNat 8 i.val) = .dout i := by revert i; decide

theorem regAt_cmd : regAt 0x18 = .cmd := by decide

theorem regAt_status : regAt 0x19 = .status := by decide

theorem regAt_reserved : ∀ a : Addr, 0x1A ≤ a.toNat → regAt a = .reserved := by decide

theorem addr_of_regAt_key : ∀ (a : Addr) (i : Lane), regAt a = .key i → a = 0x00 + BitVec.ofNat 8 i.val := by decide

theorem addr_of_regAt_din : ∀ (a : Addr) (i : Lane), regAt a = .din i → a = 0x08 + BitVec.ofNat 8 i.val := by decide

theorem addr_of_regAt_dout : ∀ (a : Addr) (i : Lane), regAt a = .dout i → a = 0x10 + BitVec.ofNat 8 i.val := by decide

theorem addr_of_regAt_cmd : ∀ a : Addr, regAt a = .cmd → a = 0x18 := by decide

theorem addr_of_regAt_status : ∀ a : Addr, regAt a = .status → a = 0x19 := by decide

/-! ### STATUS -/

/-- The bits of STATUS (R26). -/
theorem statusByte_bits (dout : Bytes8) (ill : Bool) :
    (statusByte dout ill).getLsbD 0 = ckok dout ∧ (statusByte dout ill).getLsbD 1 = tmok dout ∧
    (statusByte dout ill).getLsbD 2 = (ckok dout && tmok dout) ∧ (statusByte dout ill).getLsbD 3 = ill ∧
    (statusByte dout ill).extractLsb' 4 4 = 0#4 := by
  unfold statusByte valid
  generalize ckok dout = x
  generalize tmok dout = y
  revert x y ill; decide

/-- CKOK over numbers (R27). -/
theorem ckok_iff (d : Bytes8) :
    ckok d = true ↔ ((d.get 0).toNat + (d.get 1).toNat + (d.get 2).toNat) % 256 = (d.get 3).toNat := by
  have h0 := (d.get 0).isLt
  have h1 := (d.get 1).isLt
  have h2 := (d.get 2).isLt
  have h3 := (d.get 3).isLt
  simp only [ckok, beq_iff_eq, ← BitVec.toNat_inj]
  simp [zext16]
  omega

/-! ### Commands and transactions -/

/-- The effect a command byte selects. -/
theorem execute_cases (s : State) (c : Byte) :
    (decodeCmd8 c = some .nop ∧ execute s c = s) ∨
    (decodeCmd8 c = some .decrypt ∧ execute s c = s.setDout (decryptBlock s.key s.din s.cstate)) ∨
    (decodeCmd8 c = some .encrypt ∧ execute s c = s.setDout (encryptBlock s.key s.din s.cstate)) ∨
    (decodeCmd8 c = some .clrstat ∧ execute s c = s.setIll false) ∨
    (decodeCmd8 c = none ∧ execute s c = s.setIll true) := by
  unfold execute
  cases h : decodeCmd8 c with
  | none => simp [markIllegal]
  | some k => cases k <;> simp [doNop, doDecrypt, doEncrypt, doClrstat]

/-- What a WRITE can do. -/
theorem busWrite_cases (s : State) (a : Addr) (d : Byte) :
    (∃ i, regAt a = .key i ∧ busWrite s a d = s.setKeyByte i d) ∨
    (∃ i, regAt a = .din i ∧ busWrite s a d = s.setDinByte i d) ∨
    (regAt a = .cmd ∧ busWrite s a d = execute s d) ∨
    (((∃ i, regAt a = .dout i) ∨ regAt a = .status ∨ regAt a = .reserved) ∧ busWrite s a d = s) := by
  unfold busWrite
  cases h : regAt a <;> simp

/-- What no command changes. -/
theorem execute_frame (s : State) (c : Byte) :
    (execute s c).key = s.key ∧ (execute s c).din = s.din ∧ (execute s c).cstate = s.cstate ∧
    (execute s c).inputs = s.inputs ∧ (execute s c).replies = s.replies ∧ (execute s c).hosts = s.hosts := by
  rcases execute_cases s c with ⟨_, e⟩ | ⟨_, e⟩ | ⟨_, e⟩ | ⟨_, e⟩ | ⟨_, e⟩ <;> rw [e] <;> simp

/-- What no WRITE changes. -/
theorem busWrite_frame (s : State) (a : Addr) (d : Byte) :
    (busWrite s a d).cstate = s.cstate ∧ (busWrite s a d).inputs = s.inputs ∧
    (busWrite s a d).replies = s.replies ∧ (busWrite s a d).hosts = s.hosts := by
  rcases busWrite_cases s a d with ⟨i, _, e⟩ | ⟨i, _, e⟩ | ⟨_, e⟩ | ⟨_, e⟩ <;> rw [e] <;> simp [execute_frame]

/-- A WRITE does not look at what is still to be taken. -/
theorem busWrite_setInputs (s : State) (a : Addr) (d : Byte) (l : List Input) :
    busWrite (s.setInputs l) a d = (busWrite s a d).setInputs l := by
  unfold busWrite
  cases regAt a <;> simp
  · rfl
  · rfl
  · unfold execute
    cases decodeCmd8 d with
    | none => rfl
    | some k => cases k <;> rfl

/-- An instruction always answers a next state. -/
theorem exec_next (i : Instr) (s : State) : ∃ t, exec i s = .next t := by
  cases i <;> exact ⟨_, rfl⟩

/-- What a record does: a READ returns the addressed byte, and a WRITE, commands among them, is `BusWrite` of its
fields. -/
theorem exec_decode_cases (t : Record) (s : State) :
    (weField t = false ∧ exec (decode t) s = .next (s.pushReply (busRead s (addrField t)))) ∨
    (weField t = true ∧ exec (decode t) s = .next (busWrite s (addrField t) (dataField t))) := by
  cases h : weField t with
  | false =>
    left
    simp only [decode, h]
    exact ⟨trivial, rfl⟩
  | true =>
    right
    refine ⟨rfl, ?_⟩
    simp only [decode, h, if_true]
    by_cases ha : addrField t = cmdAddr
    · rw [ha]
      cases hc : decodeCmd8 (dataField t) with
      | none => rw [decodeWrite_illegal hc]; rfl
      | some k =>
        rw [decodeWrite_command hc]
        show _ = Host.Outcome.next (execute s (dataField t))
        simp only [execute, hc]
        cases k <;> rfl
    · rw [decodeWrite_of_ne _ ha]
      rfl

/-! ### Steps -/

/-- What a step can do: everything, guards included. -/
theorem step_cases (s : State) :
    (1 < s.hosts ∧ step s = .refused .multipleHosts) ∨
    (s.hosts ≤ 1 ∧ s.inputs = [] ∧ step s = .next s) ∨
    (∃ rest, s.hosts ≤ 1 ∧ s.inputs = .reset [] :: rest ∧ step s = .next (resetEvent (s.setInputs rest))) ∨
    (∃ t ts rest, s.hosts ≤ 1 ∧ s.inputs = .reset (t :: ts) :: rest ∧ step s = .refused .transactionDuringReset) ∨
    (∃ t rest, s.hosts ≤ 1 ∧ s.inputs = .transaction t :: rest ∧ step s = exec (decode t) (s.setInputs rest)) := by
  unfold step
  by_cases hh : 1 < s.hosts
  · simp [hh]
  · have h1 : s.hosts ≤ 1 := by omega
    rw [if_neg hh]
    match hi : s.inputs with
    | [] => simp [h1]
    | .reset [] :: rest => simp [h1]
    | .reset (t :: ts) :: rest => simp [h1]
    | .transaction t :: rest => simp [h1]

/-- What a step that takes an input did: it was a reset, a READ or a WRITE, commands among them. -/
theorem step_head {s t : State} {x : Input} {rest : List Input} (hi : s.inputs = x :: rest)
    (h : step s = .next t) :
    (x = .reset [] ∧ t = resetEvent (s.setInputs rest)) ∨
    (∃ u, x = .transaction u ∧ weField u = false ∧
      t = (s.setInputs rest).pushReply (busRead s (addrField u))) ∨
    (∃ a d, x = .transaction (writeRecord a d) ∧ t = busWrite (s.setInputs rest) a d) := by
  rcases step_cases s with ⟨_, e⟩ | ⟨_, hi', _⟩ | ⟨r, _, hi', e⟩ | ⟨u, ts, r, _, _, e⟩ | ⟨u, r, _, hi', e⟩
  · rw [e] at h; cases h
  · rw [hi] at hi'; cases hi'
  · rw [hi] at hi'; cases hi'; rw [e] at h; cases h; exact .inl ⟨rfl, rfl⟩
  · rw [e] at h; cases h
  · rw [hi] at hi'; cases hi'
    rw [e] at h
    rcases exec_decode_cases u (s.setInputs rest) with ⟨hw, e'⟩ | ⟨hw, e'⟩ <;> rw [e'] at h <;> cases h
    · exact .inr (.inl ⟨u, rfl, hw, rfl⟩)
    · exact .inr (.inr ⟨addrField u, dataField u, by rw [writeRecord_fields u hw], rfl⟩)

end Sys2Proof.Machine
end

