-- ==== Sys2Proof/Laws/PerInstr.lean ====
section
/-! SUPPORT. Statements about every instruction as syntax, one lemma per constructor. `RecordFields`: the three fields
of an instruction's record (30_encoding.md R61, R63, R67). -/

namespace Sys2Proof.Laws

/-- The fields R61 and R63 give an instruction: `WE`, `ADDR`, `DATA`. -/
def fieldsOf : Instr → Bool × Addr × Byte
  | .read addr => (false, addr, 0x00)
  | .write addr data => (true, addr, data)
  | .nop => (true, 0x18, 0x00)
  | .decrypt => (true, 0x18, 0x01)
  | .encrypt => (true, 0x18, 0x02)
  | .clrstat => (true, 0x18, 0x03)

def RecordFields.Statement (i : Instr) : Prop :=
  (weField (encode i), addrField (encode i), dataField (encode i)) = fieldsOf i

theorem RecordFields.read (addr : Addr) : RecordFields.Statement (.read addr) := by
  simp [RecordFields.Statement, encode, fieldsOf]

theorem RecordFields.write (addr : Addr) (data : Byte) : RecordFields.Statement (.write addr data) := by
  simp [RecordFields.Statement, encode, fieldsOf]

theorem RecordFields.nop : RecordFields.Statement .nop := by unfold RecordFields.Statement; decide

theorem RecordFields.decrypt : RecordFields.Statement .decrypt := by unfold RecordFields.Statement; decide

theorem RecordFields.encrypt : RecordFields.Statement .encrypt := by unfold RecordFields.Statement; decide

theorem RecordFields.clrstat : RecordFields.Statement .clrstat := by unfold RecordFields.Statement; decide

end Sys2Proof.Laws
end

