-- ==== Sys2Proof/Laws/Run.lean ====
section
/-! SUPPORT. Runs of several steps, taken apart. -/

namespace Sys2Proof.Machine

/-- One more step in front of a run. -/
theorem run_succ {s t : State} (n : Nat) (h : step s = .next t) :
    Host.Core.run core (n + 1) s = Host.Core.run core n t := by
  have h' : core.step s = .next t := h
  simp only [Host.Core.run, h']

/-- A run that ends in a state began with a step that did. -/
theorem run_succ_inv {s u : State} {n : Nat} (h : Host.Core.run core (n + 1) s = .next u) :
    ∃ t, step s = .next t ∧ Host.Core.run core n t = .next u := by
  cases hs : step s with
  | next t => exact ⟨t, rfl, run_succ n hs ▸ h⟩
  | fault f => cases f
  | refused r =>
    have hs' : core.step s = .refused r := hs
    simp only [Host.Core.run, hs'] at h
    cases h

/-- A run after a run. -/
theorem run_add {s t : State} (m n : Nat) (h : Host.Core.run core m s = .next t) :
    Host.Core.run core (m + n) s = Host.Core.run core n t := by
  induction m generalizing s with
  | zero => cases h; simp
  | succ m ih =>
    obtain ⟨u, hu, hr⟩ := run_succ_inv h
    rw [show m + 1 + n = (m + n) + 1 by omega, run_succ _ hu, ih hr]

end Sys2Proof.Machine
end

