-- ==== Sys2Proof/Tests/Slice0.lean ====
section
/-! SUPPORT. The model's own tests: expected values are those of 95_test_vectors.md and of the encodings of
30_encoding.md, written out by hand. Then a witness for the hypotheses of each statement that has some. -/

namespace Sys2Proof.Tests

open Machine Safety

/-- `K`, the scenario key of 95_test_vectors.md. -/
def K : Bytes8 := ⟨0xC4, 0xC6, 0xC0, 0x92, 0x40, 0x23, 0xDC, 0x96⟩

/-- The table value `GK` of 95_test_vectors.md, a test value of the parameter only. -/
def GK : Bytes8 := ⟨0x48, 0x74, 0x65, 0x6D, 0x70, 0x39, 0x39, 0x65⟩

/-- The plaintext of E1. -/
def plainE1 : Bytes8 := ⟨0x50, 0x01, 0x94, 0xE5, 0x0D, 0x00, 0x00, 0x00⟩

/-- The raw frame of E1 under a zero table. -/
def rawE1 : Bytes8 := ⟨0x67, 0x28, 0x44, 0x94, 0xCA, 0xDC, 0x23, 0xBA⟩

/-- A block after reset, with a key, an input block and a table, and one record issued. -/
def issued (key din cs : Bytes8) (t : Record) : State :=
  { State.reset with key := key, din := din, cstate := cs, inputs := [.transaction t] }

/-- The state after reset with one record issued. -/
def fromReset (t : Record) : State := { State.reset with inputs := [.transaction t] }

/-- The next state, if there is one. -/
def next? : Host.Outcome State Fault Refusal → Option State
  | .next s => some s
  | .fault _ => none
  | .refused _ => none

/-! ### WellFormed: a WRITE that is a command under another name is refused -/

theorem test_wf_refuses_write_of_nop : Instr.wf (.write 0x18 0x00) = false := by decide
theorem test_wf_refuses_write_of_clrstat : Instr.wf (.write 0x18 0x03) = false := by decide
theorem test_wf_takes_illegal_command : Instr.wf (.write 0x18 0x04) = true := by decide

/-! ### Decoding: every constructor by a word written out from R61 to R63 -/

-- WE = 0, ADDR = 00011001, DATA = 10100101 (ignored)
theorem test_decode_read : decode 0b0_00011001_10100101#17 = .read 0x19 := by decide
-- WE = 1, ADDR = 00001000, DATA = 10010101
theorem test_decode_write : decode 0b1_00001000_10010101#17 = .write 0x08 0x95 := by decide
-- WE = 1, ADDR = 00011000, RSV = 00000, OP = 000
theorem test_decode_nop : decode 0b1_00011000_00000_000#17 = .nop := by decide
theorem test_decode_decrypt : decode 0b1_00011000_00000_001#17 = .decrypt := by decide
theorem test_decode_encrypt : decode 0b1_00011000_00000_010#17 = .encrypt := by decide
theorem test_decode_clrstat : decode 0b1_00011000_00000_011#17 = .clrstat := by decide
-- RSV = 00001: illegal, R69
theorem test_decode_illegal : decode 0b1_00011000_00001_000#17 = .write 0x18 0x08 := by decide

/-- Each row of the opcode table, by the word its match gives. -/
theorem test_table_words :
    decodeTableWord 24 0x00000 = some (.read 0x00) ∧ decodeTableWord 24 0x10000 = some (.write 0x00 0x00) ∧
    decodeTableWord 8 0x00 = some .nop ∧ decodeTableWord 8 0x01 = some .decrypt ∧
    decodeTableWord 8 0x02 = some .encrypt ∧ decodeTableWord 8 0x03 = some .clrstat := by decide

/-- No 17-bit record: a bit above `WE`, and a fourth byte. -/
theorem test_no_record :
    decodeBytes [0x00, 0x00, 0x02] = .error .above17Bits ∧ decodeBytes [0x00] = .error (.notThreeBytes 1) ∧
    decodeTableWord 24 0x20000 = none := ⟨rfl, rfl, by decide⟩

/-! ### The stages: 95_test_vectors.md sections 2.1 to 2.5 -/

theorem test_shuffle : shuffle ⟨0x10, 0x11, 0x12, 0x13, 0x14, 0x15, 0x16, 0x17⟩ =
    ⟨0x12, 0x14, 0x10, 0x17, 0x11, 0x16, 0x15, 0x13⟩ := by decide
theorem test_keyMix : keyMix ⟨0x66, 0x81, 0x95, 0x4A, 0xE4, 0xBF, 0x46, 0x20⟩ K =
    ⟨0xA2, 0x47, 0x55, 0xD8, 0xA4, 0x9C, 0x9A, 0xB6⟩ := by decide
theorem test_rotCombine : rotCombine ⟨0xA2, 0x47, 0x55, 0xD8, 0xA4, 0x9C, 0x9A, 0xB6⟩ =
    ⟨0xD4, 0x48, 0xEA, 0xBB, 0x14, 0x93, 0x93, 0x56⟩ := by decide
-- exactly 3 bits are borrowed: 90_conflicts.md C1
theorem test_rotCombine_borrows_three_bits : rotCombine ⟨0, 0, 0, 0, 0, 0, 0, 0x07⟩ =
    ⟨0xE0, 0, 0, 0, 0, 0, 0, 0⟩ := by decide
theorem test_nibbleSwap : nibbleSwap ⟨0x00, 0xFF, 0x0F, 0xF0, 0x12, 0xA5, 0x80, 0x01⟩ =
    ⟨0x00, 0xFF, 0xF0, 0x0F, 0x21, 0x5A, 0x08, 0x10⟩ := by decide
theorem test_subtract_wraps : subtract ⟨0xD4, 0x84, 0x00, 0x00, 0xFF, 0, 0, 0⟩ ⟨0x84, 0x84, 0x84, 0xFF, 0x00, 0, 0, 0⟩ =
    ⟨0x50, 0x00, 0x7C, 0x01, 0xFF, 0, 0, 0⟩ := by decide

/-! ### The commands and transactions: sections 1, 2.6, 2.7, 2.9 -/

-- E1, CSTATE = GK
theorem test_decrypt_E1 : (next? (step (issued K ⟨0x95, 0xE4, 0x66, 0x20, 0x81, 0x46, 0xBF, 0x4A⟩ GK 0x11801))).map
    (fun s => (s.dout, busRead s 0x19)) = some (plainE1, 0x07) := by decide
-- section 2.7, key K, CSTATE = GK
theorem test_decrypt_vector : (next? (step (issued K ⟨0, 1, 2, 3, 4, 5, 6, 7⟩ GK 0x11801))).map
    (fun s => (s.dout, busRead s 0x19)) = some (⟨0x34, 0x91, 0x02, 0x3C, 0xA1, 0x91, 0x28, 0xDC⟩, 0x00) := by decide
-- E1, CSTATE = Z
theorem test_encrypt_E1 : (next? (step (issued K plainE1 Bytes8.zero 0x11802))).map (·.dout) = some rawE1 := by decide
-- section 2.7, key FF × 8, CSTATE = GK
theorem test_encrypt_vector : (next? (step (issued ⟨0xFF, 0xFF, 0xFF, 0xFF, 0xFF, 0xFF, 0xFF, 0xFF⟩
    ⟨0, 1, 2, 3, 4, 5, 6, 7⟩ GK 0x11802))).map (·.dout) =
    some ⟨0x39, 0xA3, 0xDD, 0x13, 0xBD, 0x35, 0x3B, 0x37⟩ := by decide
-- the sum 0x120 wraps to 0x20, and bytes 5 to 7 are ignored
theorem test_status_sum_wraps : statusByte ⟨0xF0, 0x20, 0x10, 0x20, 0x0D, 0xAA, 0xBB, 0xCC⟩ false = 0x07 := by decide
theorem test_status_bad_checksum : statusByte ⟨0x50, 0x01, 0x94, 0xE6, 0x0D, 0, 0, 0⟩ true = 0x0A := by decide

theorem test_read_status : (next? (step (fromReset 0x01900))).map (·.replies) = some [0x01] := by decide
theorem test_read_reserved : (next? (step (fromReset 0x08000))).map (·.replies) = some [0x00] := by decide
theorem test_write_din3 : (next? (step (fromReset 0x10B20))).map (·.din) =
    some ⟨0, 0, 0, 0x20, 0, 0, 0, 0⟩ := by decide
theorem test_write_dout_ignored : (next? (step (fromReset 0x11055))).map (·.dout) = some Bytes8.zero := by decide
theorem test_illegal_sets_ill : (next? (step (fromReset 0x11804))).map (busRead · 0x19) = some 0x09 := by decide
theorem test_nop_keeps_ill :
    (next? (step { fromReset 0x11800 with ill := true })).map (busRead · 0x19) = some 0x09 := by decide
theorem test_clrstat_clears_ill :
    (next? (step { fromReset 0x11803 with ill := true })).map (busRead · 0x19) = some 0x01 := by decide

/-- The parameter left free, an instruction still runs as the first after reset. -/
theorem test_first_instruction_runs :
    [(24, 0x00000), (24, 0x10000), (8, 0), (8, 1), (8, 2), (8, 3)].all
      (fun p => (next? (step (State.reset.withFetchWord p.1 p.2))).isSome) = true := by rfl

/-! ### The assembler: R67 to R69 -/

theorem test_assemble_text : Asm.assembleText "WR DIN0, 0x95 ; a byte\nDEC\n; nothing\nRD STATUS" =
    some [0x10895, 0x11801, 0x01900] := by decide
theorem test_assemble_ldkey :
    (Asm.assembleText "LDKEY 0xC4,0xC6,0xC0,0x92,0x40,0x23,0xDC,0x96").map (fun l => (l.length, l.getLast?)) =
    some (8, some 0x10796) := by decide

-- every digit in its place, either case; a letter past F, one digit or three, and a register name past 7 are not read
theorem test_digits :
    (Asm.byteOf "0x09".toList, Asm.byteOf "0xAF".toList, Asm.byteOf "0xe5".toList) = (some 0x09, some 0xAF, some 0xE5) ∧
    [Asm.byteOf "0x0G".toList, Asm.byteOf "0x0".toList, Asm.byteOf "0x000".toList] = [none, none, none] ∧
    Asm.addrOf "KEY7".toList = some (.key 7) ∧ Asm.addrOf "KEY8".toList = none := by decide

/-! ### Witnesses: states and operands that meet the hypotheses of the statements -/

/-- A host that has loaded its key and a whole frame. -/
def session : List Input :=
  (Asm.assemble [.ldkey [0xC4, 0xC6, 0xC0, 0x92, 0x40, 0x23, 0xDC, 0x96],
    .ldin [0x67, 0x28, 0x44, 0x94, 0xCA, 0xDC, 0x23, 0xBA]]).map .transaction

/-- The record of DECRYPT issued. -/
def dec : Input := .transaction 0x11801

theorem witness_DecodeOfEncode : Instr.wf (.write 0x18 0xFF) = true ∧ Instr.wf (.write 0xFF 0x00) = true := by decide

theorem witness_RecordDecodesByItsFields :
    (0x0FFFF#17).getLsbD 16 = false ∧
    ((0x119FF#17).getLsbD 16 = true ∧ (0x119FF#17).extractLsb' 8 8 ≠ 0x18#8) ∧
    ((0x11803#17).getLsbD 16 = true ∧ (0x11803#17).extractLsb' 8 8 = 0x18#8 ∧
      (0x11800#17).extractLsb' 3 5 = 0b00000#5 ∧ (0x11800#17).extractLsb' 0 3 = 0b000#3 ∧
      (0x11801#17).extractLsb' 0 3 = 0b001#3 ∧ (0x11802#17).extractLsb' 0 3 = 0b010#3 ∧
      (0x11803#17).extractLsb' 0 3 = 0b011#3 ∧
      4 ≤ ((0x11804#17).extractLsb' 0 3).toNat ∧ (0x11808#17).extractLsb' 3 5 ≠ 0b00000#5) := by decide

theorem witness_ResetEvent :
    let s := { State.reset with key := K, ill := true, inputs := [.reset [], dec] }
    s.hosts ≤ 1 ∧ s.inputs = .reset [] :: [dec] := ⟨by decide, rfl⟩

theorem witness_StopsMultipleHosts : step { State.reset with hosts := 2 } = .refused .multipleHosts := rfl

theorem witness_StopsTransactionDuringReset :
    step { State.reset with inputs := [.reset [0x01900]] } = .refused .transactionDuringReset := rfl

theorem witness_StepRunsTheDecodedTransaction :
    (fromReset (encode .decrypt)).hosts ≤ 1 ∧
    (fromReset (encode .decrypt)).inputs = .transaction (encode .decrypt) :: [] ∧ Instr.wf .decrypt = true := by decide

theorem witness_FetchWord :
    0x1FFFF < 2 ^ 17 ∧ decodeTableWord 24 0x1FFFF = some (.write 0xFF 0xFF) ∧
    0xFF < 2 ^ 8 ∧ decodeTableWord 8 0xFF = some (.write 0x18 0xFF) := by decide

theorem witness_NoInput : State.reset.hosts ≤ 1 ∧ State.reset.inputs = [] := by decide

theorem witness_SafeState : Safe { State.reset with inputs := [dec, .reset [], dec] } := by decide

theorem witness_InputsInOrder :
    Safe { State.reset with inputs := session ++ [dec] } ∧
    ({ State.reset with inputs := session ++ [dec] } : State).inputs = session ++ [dec] := by decide

theorem witness_Reserved : 0x1A ≤ (0x1A#8).toNat ∧ 0x1A ≤ (0xFF#8).toNat := by decide

theorem witness_IllegalByte : decodeCmd8 0x04 = none ∧ decodeCmd8 0xFF = none ∧ 0x04 ≤ (0x04#8).toNat := by decide

theorem witness_FrameCheckIgnores :
    let s := { State.reset with dout := plainE1 }
    let u := { State.reset with dout := { plainE1 with b5 := 0xAA, b7 := 0xCC } }
    (∀ i : Lane, i.val ≤ 4 → s.dout.get i = u.dout.get i) ∧ s.ill = u.ill ∧ s.dout ≠ u.dout := by decide

theorem witness_WriteFrameAddress : (0x01#8 : Addr) ≠ 0x00 + BitVec.ofNat 8 (0 : Lane).val ∧
    (0x07#8 : Addr) ≠ 0x08 + BitVec.ofNat 8 (7 : Lane).val ∧ (1 : Lane) ≠ 0 := by decide

theorem witness_ReadOnlyAddresses : (0x10 ≤ (0x10#8).toNat ∧ (0x10#8).toNat ≤ 0x17) ∧
    (0x10 ≤ (0x17#8).toNat ∧ (0x17#8).toNat ≤ 0x17) ∧ (0x19#8).toNat = 0x19 := by decide

theorem witness_WriteElsewhere : 0x10 ≤ (0x10#8).toNat ∧ (0x10#8).toNat ≠ 0x18 ∧
    exec (.write 0x00 0x55) State.reset = .next (State.reset.setKeyByte 0 0x55) := ⟨by decide, by decide, rfl⟩

theorem witness_OutsideTheWindow : (0xFFF < 0x1000 ∨ 0x1000 + 0x100 ≤ 0xFFF) ∧
    (0x1100 < 0x1000 ∨ 0x1000 + 0x100 ≤ 0x1100) := by decide

theorem witness_KeyMixCorners : Bytes8.zero.get 0 = 0x00#8 ∧
    (⟨0xFF, 0xFF, 0xFF, 0xFF, 0xFF, 0xFF, 0xFF, 0xFF⟩ : Bytes8).get 7 = 0xFF#8 := by decide

theorem witness_EqualNibbles :
    ((⟨0x11, 0, 0, 0, 0, 0, 0, 0⟩ : Bytes8).get 0).extractLsb' 0 4 =
      ((⟨0x11, 0, 0, 0, 0, 0, 0, 0⟩ : Bytes8).get 0).extractLsb' 4 4 := by decide

/-- Two frames that differ in byte 7, which reaches lanes 3 and 4: lane 5 is neither. -/
theorem witness_OneInputByte :
    (∀ i : Lane, i ≠ 7 → rawE1.get i = ({ rawE1 with b7 := 0 } : Bytes8).get i) ∧
    (5 : Lane) ≠ P 7 ∧ (5 : Lane) ≠ P 7 + 1 ∧
    (K.get 0 = K.get 0 ∧ GK.get 0 = GK.get 0 ∧ K.get (0 - 1) = K.get 7) := by decide

theorem witness_AnotherKey :
    let s := issued K rawE1 GK 0x11801
    let t := issued GK rawE1 GK 0x11801
    exec .decrypt s = .next (doDecrypt s) ∧ exec .decrypt t = .next (doDecrypt t) ∧ s.din = t.din ∧
      s.cstate = t.cstate ∧ s.key ≠ t.key := ⟨rfl, rfl, rfl, rfl, by decide⟩

theorem witness_DecryptOfZero :
    let s := issued Bytes8.zero Bytes8.zero Bytes8.zero 0x11801
    s.key = Bytes8.zero ∧ s.cstate = Bytes8.zero ∧ s.din = Bytes8.zero ∧ s.ill = false := by decide

theorem witness_DecryptFrameAddresses : (0x0F#8).toNat < 0x10 ∧ (0x18#8).toNat = 0x18 ∧ 0x1A ≤ (0x1A#8).toNat := by
  decide

theorem witness_EncryptOfDecrypted :
    let u := issued K rawE1 Bytes8.zero 0x11801
    let s := issued K plainE1 Bytes8.zero 0x11802
    exec .decrypt u = .next (doDecrypt u) ∧ s.key = u.key ∧ s.cstate = u.cstate ∧ s.din = (doDecrypt u).dout :=
  ⟨rfl, rfl, rfl, by decide⟩

theorem witness_Clrstat : State.reset.ill = false ∧ (0x1A#8 : Addr) ≠ 0x19 := by decide

theorem witness_IllStays :
    let s := { State.reset with ill := true }
    s.ill = true ∧ exec .decrypt s = .next (doDecrypt s) := ⟨rfl, rfl⟩

theorem witness_Idempotent : SameBlock (fromReset 0x11801) State.reset ∧
    exec .decrypt State.reset = .next (doDecrypt State.reset) := ⟨⟨rfl, rfl, rfl, rfl, rfl⟩, rfl⟩

theorem witness_IllChanges :
    let s := fromReset (writeRecord 0x18 0x04)
    s.inputs = .transaction (writeRecord 0x18 0x04) :: [] ∧ step s = .next (markIllegal (s.setInputs [])) ∧
      (markIllegal (s.setInputs [])).ill ≠ s.ill := ⟨rfl, rfl, by decide⟩

theorem witness_DoutChanges :
    let s := issued K rawE1 Bytes8.zero 0x11801
    s.inputs = .transaction 0x11801 :: [] ∧ step s = .next (doDecrypt (s.setInputs [])) ∧
      (doDecrypt (s.setInputs [])).dout ≠ s.dout := ⟨rfl, rfl, by decide⟩

theorem witness_KeyAndDinChange :
    let s := fromReset (writeRecord 0x07 0x96)
    let u := fromReset (writeRecord 0x08 0x67)
    (step s = .next ((s.setInputs []).setKeyByte 7 0x96) ∧ ((s.setInputs []).setKeyByte 7 0x96).key.get 7 ≠ s.key.get 7) ∧
    (step u = .next ((u.setInputs []).setDinByte 0 0x67) ∧ ((u.setInputs []).setDinByte 0 0x67).din.get 0 ≠ u.din.get 0) :=
  ⟨⟨rfl, by decide⟩, ⟨rfl, by decide⟩⟩

theorem witness_RunToAState : ∃ t, Host.Core.run core 17 { State.reset with inputs := session ++ [dec] } = .next t :=
  ⟨_, rfl⟩

theorem witness_SameBlockDifferentReplies :
    let s := fromReset 0x11801
    let u := { fromReset 0x11801 with replies := [0x55] }
    SameBlock s u ∧ s.inputs = u.inputs ∧ s.hosts = u.hosts ∧
      Host.Core.run core 1 s = .next (doDecrypt (s.setInputs [])) := ⟨⟨rfl, rfl, rfl, rfl, rfl⟩, rfl, rfl, rfl⟩

theorem witness_ReadAfterCommand :
    let s := { State.reset with inputs := [dec, .transaction (readRecord (0x10 + BitVec.ofNat 8 (7 : Lane).val))] }
    let u := { State.reset with inputs := [.transaction 0x11802, .transaction (readRecord (0x10 + BitVec.ofNat 8 (0 : Lane).val))] }
    s.hosts ≤ 1 ∧ s.inputs = .transaction 0x11801#17 :: .transaction (readRecord (0x10 + BitVec.ofNat 8 (7 : Lane).val)) :: [] ∧
    u.inputs = .transaction 0x11802#17 :: .transaction (readRecord (0x10 + BitVec.ofNat 8 (0 : Lane).val)) :: [] :=
  ⟨by decide, rfl, rfl⟩

theorem witness_HostView :
    let h := HostView.fresh.wroteKey 0 0xC4
    let s := { fromReset (writeRecord 0x08 0x67) with key := Bytes8.zero.set 0 0xC4 }
    h.TrueOf s ∧ s.inputs = .transaction (writeRecord 0x08 0x67) :: [] ∧
      step s = .next ((s.setInputs []).setDinByte 0 0x67) := ⟨by decide, rfl, rfl⟩

theorem witness_ObligationsKept :
    let s := { State.reset with inputs := session ++ dec :: [] }
    s.hosts ≤ 1 ∧ commandOf (decode 0x11801) = some .decrypt ∧ HostView.fresh.keeps (session ++ [dec]) = true ∧
      s.inputs = session ++ dec :: [] := by decide

theorem witness_SessionKey :
    HostView.fresh.keeps (session ++ dec :: ([.transaction 0x100C4] ++ [dec])) = true ∧
    commandOf (decode 0x11801) = some .decrypt ∧ ∀ d, Input.reset d ∉ [Input.transaction 0x100C4] :=
  ⟨by decide, by decide, by simp⟩

-- P4 of 95_test_vectors.md: rewriting only DIN0 before a DECRYPT breaks the obligation of R145
theorem test_partial_frame_breaks_the_obligation :
    HostView.fresh.keeps (session ++ [dec, .transaction 0x10868, dec]) = false := by decide

end Sys2Proof.Tests
end

section
/-! ### The registers behind an address, and the meanings as equations

What a READ and a WRITE of each kind of register is, and what a step is where its guard holds. -/

namespace Sys2Proof.Machine

theorem exec_read (s : State) (a : Addr) :
    exec (.read a) s = .next { s with replies := s.replies ++ [busRead s a] } := rfl

theorem exec_write (s : State) (a : Addr) (d : Byte) : exec (.write a d) s = .next (busWrite s a d) := rfl

theorem busRead_of_regAt_key (s : State) {a : Addr} {i : Lane} (h : regAt a = .key i) :
    busRead s a = s.key.get i := by simp only [busRead, h]

theorem busRead_of_regAt_din (s : State) {a : Addr} {i : Lane} (h : regAt a = .din i) :
    busRead s a = s.din.get i := by simp only [busRead, h]

@[simp] theorem busRead_status (s : State) : busRead s 0x19 = statusByte s.dout s.ill := by
  simp only [busRead, regAt_status, State.status]

theorem busWrite_of_regAt_key (s : State) {a : Addr} {i : Lane} (d : Byte) (h : regAt a = .key i) :
    busWrite s a d = s.setKeyByte i d := by simp only [busWrite, h]

theorem busWrite_of_regAt_din (s : State) {a : Addr} {i : Lane} (d : Byte) (h : regAt a = .din i) :
    busWrite s a d = s.setDinByte i d := by simp only [busWrite, h]

theorem busWrite_of_regAt_dout (s : State) {a : Addr} {i : Lane} (d : Byte) (h : regAt a = .dout i) :
    busWrite s a d = s := by simp only [busWrite, h]

@[simp] theorem busWrite_status (s : State) (d : Byte) : busWrite s 0x19 d = s := by
  simp only [busWrite, regAt_status]

@[simp] theorem busWrite_cmd (s : State) (c : Byte) : busWrite s 0x18 c = execute s c := by
  simp only [busWrite, regAt_cmd]

theorem execute_illegal (s : State) {c : Byte} (h : decodeCmd8 c = none) : execute s c = s.setIll true := by
  simp only [execute, h, markIllegal]

theorem regAt_of_doutRange : ∀ a : Addr, 0x10 ≤ a.toNat → a.toNat ≤ 0x17 → ∃ i, regAt a = .dout i := by decide

theorem step_idle {s : State} (hh : s.hosts ≤ 1) (hi : s.inputs = []) : step s = .next s := by
  simp [step, hi, Nat.not_lt.mpr hh]

theorem step_reset {s : State} {rest : List Input} (hh : s.hosts ≤ 1) (hi : s.inputs = .reset [] :: rest) :
    step s = .next (resetEvent (s.setInputs rest)) := by
  simp [step, hi, Nat.not_lt.mpr hh]

theorem step_transaction {s : State} {t : Record} {rest : List Input} (hh : s.hosts ≤ 1)
    (hi : s.inputs = .transaction t :: rest) : step s = exec (decode t) (s.setInputs rest) := by
  simp [step, hi, Nat.not_lt.mpr hh]

end Sys2Proof.Machine
end

section
/-! ### The host's view stays true (R143, R145) -/

namespace Sys2Proof.Safety

open Machine

/-- The view speaks of `KEY` and `DIN` only. -/
theorem trueOf_of_registers_eq {h : HostView} {s t : State} (hs : h.TrueOf s) (hk : t.key = s.key)
    (hd : t.din = s.din) : h.TrueOf t := by
  simpa only [HostView.TrueOf, hk, hd] using hs

theorem fresh_trueOf (s : State) : HostView.fresh.TrueOf s := by
  simp [HostView.TrueOf, HostView.fresh]

/-- A DECRYPT issued moves no byte the host knows of. -/
theorem decryptIssued_trueOf_iff (h : HostView) (s : State) : h.decryptIssued.TrueOf s ↔ h.TrueOf s := Iff.rfl

theorem wroteKey_trueOf {h : HostView} {s : State} (hs : h.TrueOf s) (i : Lane) (v : Byte) :
    (h.wroteKey i v).TrueOf (s.setKeyByte i v) := by
  obtain ⟨hkey, hframe⟩ := hs
  refine ⟨fun j hj => ?_, hframe⟩
  simp only [HostView.wroteKey, State.setKeyByte_key, Bytes8.get_set] at hj ⊢
  split
  · rfl
  · next hne => exact hkey j ((List.mem_cons.mp hj).resolve_left hne)

/-- Beginning another frame only forgets bytes, and the byte written stands in both. -/
theorem wroteFrame_trueOf {h : HostView} {s : State} (hs : h.TrueOf s) (i : Lane) (v : Byte) :
    (h.wroteFrame i v).TrueOf (s.setDinByte i v) := by
  obtain ⟨hkey, hframe⟩ := hs
  refine ⟨hkey, fun j hj => ?_⟩
  simp only [HostView.wroteFrame, State.setDinByte_din, Bytes8.get_set] at hj ⊢
  split
  · rfl
  · next hne =>
    have hmem : j ∈ h.frameWritten := by
      have hj' := (List.mem_cons.mp hj).resolve_left hne
      split at hj'
      · cases hj'
      · exact hj'
    exact hframe j hmem

theorem after_read (h : HostView) (a : Addr) : h.after (.read a) = h := rfl

theorem ne_cmdAddr_of_regAt {a : Addr} (h : regAt a ≠ .cmd) : a ≠ cmdAddr := by
  rintro rfl
  exact h regAt_cmd

theorem after_decodeWrite_key (h : HostView) {a : Addr} {i : Lane} (d : Byte) (hr : regAt a = .key i) :
    h.after (decodeWrite a d) = h.wroteKey i d := by
  have ha : a ≠ cmdAddr := ne_cmdAddr_of_regAt (by simp [hr])
  simp [decodeWrite_of_ne d ha, HostView.after, commandOf, ha, hr]

theorem after_decodeWrite_din (h : HostView) {a : Addr} {i : Lane} (d : Byte) (hr : regAt a = .din i) :
    h.after (decodeWrite a d) = h.wroteFrame i d := by
  have ha : a ≠ cmdAddr := ne_cmdAddr_of_regAt (by simp [hr])
  simp [decodeWrite_of_ne d ha, HostView.after, commandOf, ha, hr]

/-- A WRITE the block drops is nothing to the view. -/
theorem after_decodeWrite_dropped (h : HostView) {a : Addr} (d : Byte)
    (hr : (∃ i, regAt a = .dout i) ∨ regAt a = .status ∨ regAt a = .reserved) :
    h.after (decodeWrite a d) = h := by
  have ha : a ≠ cmdAddr := ne_cmdAddr_of_regAt (by rcases hr with ⟨i, hr⟩ | hr | hr <;> simp [hr])
  rcases hr with ⟨i, hr⟩ | hr | hr <;> simp [decodeWrite_of_ne d ha, HostView.after, commandOf, ha, hr]

/-- A WRITE to `CMD` is to the view a DECRYPT or nothing. -/
theorem after_decodeWrite_cmd (h : HostView) (d : Byte) :
    h.after (decodeWrite cmdAddr d) = h.decryptIssued ∨ h.after (decodeWrite cmdAddr d) = h := by
  cases hd : decodeCmd8 d with
  | none =>
    right
    simp [decodeWrite_illegal hd, HostView.after, commandOf, hd, show regAt cmdAddr = .cmd from regAt_cmd]
  | some c =>
    rw [decodeWrite_command hd]
    cases c
    case decrypt => exact .inl rfl
    all_goals exact .inr rfl

/-- Each WRITE moves the view and the registers alike. -/
theorem after_decodeWrite_trueOf {h : HostView} {s : State} (hs : h.TrueOf s) (a : Addr) (d : Byte) :
    (h.after (decodeWrite a d)).TrueOf (busWrite s a d) := by
  rcases busWrite_cases s a d with ⟨i, hr, e⟩ | ⟨i, hr, e⟩ | ⟨hr, e⟩ | ⟨hr, e⟩ <;> rw [e]
  · rw [after_decodeWrite_key h d hr]
    exact wroteKey_trueOf hs i d
  · rw [after_decodeWrite_din h d hr]
    exact wroteFrame_trueOf hs i d
  · obtain ⟨hkey, hdin, -⟩ := execute_frame s d
    obtain rfl : a = cmdAddr := addr_of_regAt_cmd a hr
    rcases after_decodeWrite_cmd h d with ha | ha <;> rw [ha]
    · exact (decryptIssued_trueOf_iff h _).mpr (trueOf_of_registers_eq hs hkey hdin)
    · exact trueOf_of_registers_eq hs hkey hdin
  · rw [after_decodeWrite_dropped h d hr]
    exact hs

end Sys2Proof.Safety

open Sys2Proof Sys2Proof.Machine Sys2Proof.Safety

/-- Settles O52: the step is a reset, which begins a session with nothing written, a READ, or a WRITE, which moves
the view and the registers alike. -/
theorem hostViewStaysTrue : Obligations.HostViewStaysTrue := by
  unfold Obligations.HostViewStaysTrue
  intro h s t x rest hs hi hstep
  rcases step_head hi hstep with ⟨rfl, rfl⟩ | ⟨u, rfl, hread, rfl⟩ | ⟨a, d, rfl, rfl⟩
  · exact fresh_trueOf _
  · have hview : h.take (.transaction u) = h := by simp [HostView.take, decode, hread, after_read]
    rw [hview]
    exact hs
  · have hview : h.take (.transaction (writeRecord a d)) = h.after (decodeWrite a d) := by simp [HostView.take]
    rw [hview]
    exact after_decodeWrite_trueOf (s := s.setInputs rest) hs a d
end

section
/-! ### STATUS (R26 to R29) -/

namespace Sys2Proof.Machine

/-- TMOK over bytes (R28). -/
theorem tmok_iff (d : Bytes8) : tmok d = true ↔ d.get 4 = 0x0D := by simp [tmok]

/-- STATUS reads no byte of `DOUT` past byte 4 (R29). -/
theorem statusByte_congr {d e : Bytes8} (ill : Bool) (h : ∀ i : Lane, i.val ≤ 4 → d.get i = e.get i) :
    statusByte d ill = statusByte e ill := by
  have hck : ckok d = ckok e := by
    simp only [ckok, h 0 (by decide), h 1 (by decide), h 2 (by decide), h 3 (by decide)]
  have htm : tmok d = tmok e := by simp only [tmok, h 4 (by decide)]
  simp only [statusByte, valid, hck, htm]

theorem busRead_reset_status : busRead State.reset 0x19 = 0x01 := by decide

end Sys2Proof.Machine

open Sys2Proof Sys2Proof.Machine

/-- Settles O20: the byte a READ of 0x19 returns is `statusByte`, whose bits are the flags and `ILL`. -/
theorem statusBitsFollowDout : Obligations.StatusBitsFollowDout := by
  unfold Obligations.StatusBitsFollowDout
  refine ⟨fun s d => ⟨busRead s 0x19, exec_read s 0x19, ?_⟩, busRead_reset_status⟩
  obtain ⟨hck, htm, hvalid, hill, hzero⟩ := statusByte_bits s.dout s.ill
  rw [busRead_status, hck, htm, hvalid, exec_write, busWrite_status]
  exact ⟨ckok_iff s.dout, tmok_iff s.dout, rfl, hill, hzero, rfl⟩

/-- Settles O21: the flags read bytes 0 to 4 of `DOUT` only. -/
theorem frameCheckIgnoresUnusedBytes : Obligations.FrameCheckIgnoresUnusedBytes := by
  unfold Obligations.FrameCheckIgnoresUnusedBytes
  intro s u hdout hill
  have hstatus : busRead s 0x19 = busRead u 0x19 := by
    rw [busRead_status, busRead_status, hill, statusByte_congr u.ill hdout]
  obtain ⟨hck, htm, hvalid, -⟩ := statusByte_bits u.dout u.ill
  refine ⟨hstatus, ?_⟩
  rw [hstatus, busRead_status, hck, htm, hvalid]
end

section
/-! ### WRITE (R21, R22, R23, R81) -/

namespace Sys2Proof.Machine

/-- After a write of `KEY[i]` every other address reads as before. -/
theorem busRead_setKeyByte_of_ne (s : State) {i : Lane} (d : Byte) {a : Addr} (ha : regAt a ≠ .key i) :
    busRead (s.setKeyByte i d) a = busRead s a := by
  unfold busRead
  cases hr : regAt a with
  | key j => exact Bytes8.get_set_other s.key d fun hji => ha (hji ▸ hr)
  | din | dout | cmd | status | reserved => rfl

/-- After a write of `DIN[i]` every other address reads as before. -/
theorem busRead_setDinByte_of_ne (s : State) {i : Lane} (d : Byte) {a : Addr} (ha : regAt a ≠ .din i) :
    busRead (s.setDinByte i d) a = busRead s a := by
  unfold busRead
  cases hr : regAt a with
  | din j => exact Bytes8.get_set_other s.din d fun hji => ha (hji ▸ hr)
  | key | dout | cmd | status | reserved => rfl

end Sys2Proof.Machine

open Sys2Proof Sys2Proof.Machine

/-- Settles O22: the WRITE is `setKeyByte` or `setDinByte`. -/
theorem writeStoresKeyAndDinBytes : Obligations.WriteStoresKeyAndDinBytes := by
  unfold Obligations.WriteStoresKeyAndDinBytes
  intro s i d
  constructor
  · have hr := regAt_keyAddr i
    refine ⟨s.setKeyByte i d, ?_, Bytes8.get_set_same s.key i d, fun j hj => Bytes8.get_set_other s.key d hj,
      rfl, rfl, rfl, rfl, ⟨rfl, rfl, rfl⟩, ?_, fun a ha => busRead_setKeyByte_of_ne s d ?_⟩
    · rw [exec_write, busWrite_of_regAt_key s d hr]
    · rw [busRead_of_regAt_key _ hr, State.setKeyByte_key, Bytes8.get_set_same]
    · exact fun hkey => ha (addr_of_regAt_key a i hkey)
  · have hr := regAt_dinAddr i
    refine ⟨s.setDinByte i d, ?_, Bytes8.get_set_same s.din i d, fun j hj => Bytes8.get_set_other s.din d hj,
      rfl, rfl, rfl, rfl, ⟨rfl, rfl, rfl⟩, ?_, fun a ha => busRead_setDinByte_of_ne s d ?_⟩
    · rw [exec_write, busWrite_of_regAt_din s d hr]
    · rw [busRead_of_regAt_din _ hr, State.setDinByte_din, Bytes8.get_set_same]
    · exact fun hdin => ha (addr_of_regAt_din a i hdin)

/-- Settles O24: both kinds of address are among those where `BusWrite` does nothing. -/
theorem writeToReadOnlyRegistersIsDropped : Obligations.WriteToReadOnlyRegistersIsDropped := by
  unfold Obligations.WriteToReadOnlyRegistersIsDropped
  rintro s a d (⟨hlo, hhi⟩ | hstatus)
  · obtain ⟨i, hr⟩ := regAt_of_doutRange a hlo hhi
    rw [exec_write, busWrite_of_regAt_dout s d hr]
  · obtain rfl : a = 0x19 := BitVec.eq_of_toNat_eq hstatus
    rw [exec_write, busWrite_status]
end

section
/-! ### What changes each register (R21, R22, R23, R31) -/

namespace Sys2Proof.Machine

/-- A byte that decodes is the command's own byte (R63). -/
theorem byte_of_decodeCmd8 {c : Byte} {k : Command} (h : decodeCmd8 c = some k) : c = k.byte := by
  rcases decodeCmd8_cases c with ⟨hc, e⟩ | ⟨hc, e⟩ | ⟨hc, e⟩ | ⟨hc, e⟩ | ⟨_, e⟩ <;> rw [e] at h <;> cases h <;> exact hc

/-- The command bytes that change `ILL`, and from which value. -/
theorem execute_ill_change {s : State} {c : Byte} (h : (execute s c).ill ≠ s.ill) :
    (s.ill = false ∧ decodeCmd8 c = none) ∨ (s.ill = true ∧ c = 0x03) := by
  rcases execute_cases s c with ⟨_, e⟩ | ⟨_, e⟩ | ⟨_, e⟩ | ⟨hc, e⟩ | ⟨hc, e⟩ <;> rw [e] at h
  · exact absurd rfl h
  · exact absurd rfl h
  · exact absurd rfl h
  · exact .inr ⟨by simpa using h.symm, byte_of_decodeCmd8 hc⟩
  · exact .inl ⟨by simpa using h.symm, hc⟩

/-- The command bytes that change `DOUT`. -/
theorem execute_dout_change {s : State} {c : Byte} (h : (execute s c).dout ≠ s.dout) : c = 0x01 ∨ c = 0x02 := by
  rcases execute_cases s c with ⟨_, e⟩ | ⟨hc, _⟩ | ⟨hc, _⟩ | ⟨_, e⟩ | ⟨_, e⟩
  · exact absurd (by rw [e]) h
  · exact .inl (byte_of_decodeCmd8 hc)
  · exact .inr (byte_of_decodeCmd8 hc)
  · exact absurd (by rw [e]; rfl) h
  · exact absurd (by rw [e]; rfl) h

/-- A WRITE that changes `ILL` or `DOUT` issues a command. -/
theorem busWrite_eq_execute {s : State} {a : Addr} {d : Byte}
    (h : (busWrite s a d).ill ≠ s.ill ∨ (busWrite s a d).dout ≠ s.dout) :
    a = 0x18 ∧ busWrite s a d = execute s d := by
  rcases busWrite_cases s a d with ⟨i, _, e⟩ | ⟨i, _, e⟩ | ⟨hr, e⟩ | ⟨_, e⟩
  · simp [e] at h
  · simp [e] at h
  · exact ⟨addr_of_regAt_cmd a hr, e⟩
  · simp [e] at h

/-- A WRITE that changes `KEY[i]` is the WRITE to its address of the value it then holds. -/
theorem busWrite_key_change {s : State} {a : Addr} {d : Byte} {i : Lane}
    (h : (busWrite s a d).key.get i ≠ s.key.get i) :
    a = 0x00 + BitVec.ofNat 8 i.val ∧ d = (busWrite s a d).key.get i := by
  rcases busWrite_cases s a d with ⟨j, hr, e⟩ | ⟨j, _, e⟩ | ⟨_, e⟩ | ⟨_, e⟩
  · rw [e, State.setKeyByte_key] at h ⊢
    obtain rfl : i = j := by
      by_contra hij
      exact h (Bytes8.get_set_other s.key d hij)
    exact ⟨addr_of_regAt_key a i hr, (Bytes8.get_set_same s.key i d).symm⟩
  · exact absurd (by rw [e, State.setDinByte_key]) h
  · obtain ⟨hkey, -⟩ := execute_frame s d
    exact absurd (by rw [e, hkey]) h
  · exact absurd (by rw [e]) h

/-- A WRITE that changes `DIN[i]` is the WRITE to its address of the value it then holds. -/
theorem busWrite_din_change {s : State} {a : Addr} {d : Byte} {i : Lane}
    (h : (busWrite s a d).din.get i ≠ s.din.get i) :
    a = 0x08 + BitVec.ofNat 8 i.val ∧ d = (busWrite s a d).din.get i := by
  rcases busWrite_cases s a d with ⟨j, _, e⟩ | ⟨j, hr, e⟩ | ⟨_, e⟩ | ⟨_, e⟩
  · exact absurd (by rw [e, State.setKeyByte_din]) h
  · rw [e, State.setDinByte_din] at h ⊢
    obtain rfl : i = j := by
      by_contra hij
      exact h (Bytes8.get_set_other s.din d hij)
    exact ⟨addr_of_regAt_din a i hr, (Bytes8.get_set_same s.din i d).symm⟩
  · obtain ⟨-, hdin, -⟩ := execute_frame s d
    exact absurd (by rw [e, hdin]) h
  · exact absurd (by rw [e]) h

end Sys2Proof.Machine

open Sys2Proof Sys2Proof.Machine

/-- Settles O45: a step that changes `ILL` is a reset or a WRITE that issues a command, and of the commands only
CLRSTAT and an illegal byte change it. -/
theorem illChangesOnlyByIllegalClrstatReset : Obligations.IllChangesOnlyByIllegalClrstatReset := by
  unfold Obligations.IllChangesOnlyByIllegalClrstatReset
  refine ⟨rfl, fun s => ⟨?_, rfl, ⟨_, rfl, rfl⟩, fun c hc => ?_⟩, fun s t x rest hi hstep hne => ?_⟩
  · obtain ⟨-, -, -, hill, -⟩ := statusByte_bits s.dout s.ill
    rw [busRead_status, hill]
  · refine ⟨s.setIll true, ?_, rfl⟩
    rw [exec_write, busWrite_cmd, execute_illegal s hc]
  · rcases step_head hi hstep with ⟨rfl, rfl⟩ | ⟨u, rfl, -, rfl⟩ | ⟨a, d, rfl, rfl⟩
    · exact .inr ⟨by simpa using hne.symm, .inr rfl⟩
    · exact absurd rfl hne
    · obtain ⟨rfl, e⟩ := busWrite_eq_execute (s := s.setInputs rest) (.inl hne)
      rw [e] at hne
      rcases execute_ill_change (s := s.setInputs rest) hne with ⟨hill, hc⟩ | ⟨hill, rfl⟩
      · exact .inl ⟨hill, d, hc, rfl⟩
      · exact .inr ⟨hill, .inl rfl⟩

/-- Settles O46: a step that changes `DOUT` is a reset or a WRITE that issues DECRYPT or ENCRYPT. -/
theorem doutChangesOnlyByDecryptEncryptReset : Obligations.DoutChangesOnlyByDecryptEncryptReset := by
  unfold Obligations.DoutChangesOnlyByDecryptEncryptReset
  intro s t x rest hi hstep hne
  rcases step_head hi hstep with ⟨rfl, rfl⟩ | ⟨u, rfl, -, rfl⟩ | ⟨a, d, rfl, rfl⟩
  · exact .inr (.inr rfl)
  · exact absurd rfl hne
  · obtain ⟨rfl, e⟩ := busWrite_eq_execute (s := s.setInputs rest) (.inr hne)
    rw [e] at hne
    rcases execute_dout_change (s := s.setInputs rest) hne with rfl | rfl
    · exact .inl rfl
    · exact .inr (.inl rfl)

/-- Settles O47: commands and READs leave `KEY` and `DIN`, and a WRITE reaches the one byte at its address. -/
theorem keyAndDinChangeOnlyByTheirWrites : Obligations.KeyAndDinChangeOnlyByTheirWrites := by
  unfold Obligations.KeyAndDinChangeOnlyByTheirWrites
  intro s t x rest i hi hstep
  rcases step_head hi hstep with ⟨rfl, rfl⟩ | ⟨u, rfl, -, rfl⟩ | ⟨a, d, rfl, rfl⟩
  · exact ⟨fun _ => .inr rfl, fun _ => .inr rfl⟩
  · exact ⟨fun hne => absurd rfl hne, fun hne => absurd rfl hne⟩
  · refine ⟨fun hne => .inl ?_, fun hne => .inl ?_⟩
    · obtain ⟨ha, hd⟩ := busWrite_key_change (s := s.setInputs rest) hne
      rw [← hd, ha]
    · obtain ⟨ha, hd⟩ := busWrite_din_change (s := s.setInputs rest) hne
      rw [← hd, ha]
end

section
/-! ### The table `CSTATE` (R30) -/

namespace Sys2Proof.Machine

theorem exec_cstate {s t : State} {i : Instr} (h : exec i s = .next t) : t.cstate = s.cstate := by
  cases i with
  | write a d =>
    rw [exec_write] at h
    cases h
    obtain ⟨hcstate, -⟩ := busWrite_frame s a d
    exact hcstate
  | read | nop | decrypt | encrypt | clrstat => cases h; rfl

theorem step_cstate {s t : State} (h : step s = .next t) : t.cstate = s.cstate := by
  rcases step_cases s with ⟨_, e⟩ | ⟨_, _, e⟩ | ⟨r, _, _, e⟩ | ⟨u, ts, r, _, _, e⟩ | ⟨u, r, _, _, e⟩ <;> rw [e] at h
  · cases h
  · cases h; rfl
  · cases h; rfl
  · cases h
  · exact exec_cstate (s := s.setInputs r) h

theorem run_cstate {s t : State} {n : Nat} (h : Host.Core.run core n s = .next t) : t.cstate = s.cstate := by
  induction n generalizing s with
  | zero => cases h; rfl
  | succ n ih =>
    obtain ⟨u, hstep, hrun⟩ := run_succ_inv h
    rw [ih hrun, step_cstate hstep]

end Sys2Proof.Machine

open Sys2Proof Sys2Proof.Machine

/-- Settles O48: by induction on the number of steps, each of which leaves the table. -/
theorem cipherStateTableIsImmutable : Obligations.CipherStateTableIsImmutable := by
  unfold Obligations.CipherStateTableIsImmutable
  refine ⟨fun s cs a => ?_, fun s t i => exec_cstate, fun s => rfl, fun s t n => run_cstate⟩
  unfold busRead
  cases regAt a <;> rfl
end

section
/-! ### No hidden state (R20, R34, R107)

Two states with the same block, inputs and hosts differ in `replies` only, and nothing of the block reads that. -/

namespace Sys2Proof.Machine

/-- What has been returned to the host, replaced. -/
def State.withReplies (s : State) (r : List Byte) : State := { s with replies := r }

/-- From `s` to `s'` some bytes `l` are returned, and `f` returns the same `l` and does the same to the block whatever
had been returned before. -/
def AppendsReplies (s s' : State) (f : State → Host.Outcome State Fault Refusal) : Prop :=
  ∃ l, s'.replies = s.replies ++ l ∧ ∀ r, f (s.withReplies r) = .next (s'.withReplies (r ++ l))

theorem busRead_withReplies (s : State) (r : List Byte) (a : Addr) : busRead (s.withReplies r) a = busRead s a := by
  unfold busRead
  cases regAt a <;> rfl

theorem execute_withReplies (s : State) (r : List Byte) (c : Byte) :
    execute (s.withReplies r) c = (execute s c).withReplies r := by
  unfold execute
  cases decodeCmd8 c with
  | none => rfl
  | some k => cases k <;> rfl

theorem busWrite_withReplies (s : State) (r : List Byte) (a : Addr) (d : Byte) :
    busWrite (s.withReplies r) a d = (busWrite s a d).withReplies r := by
  unfold busWrite
  cases regAt a with
  | cmd => exact execute_withReplies s r d
  | key | din | dout | status | reserved => rfl

/-- An outcome that returns no byte. -/
theorem appendsReplies_of_silent {s s' : State} {f : State → Host.Outcome State Fault Refusal}
    (hs : s'.replies = s.replies) (hf : ∀ r, f (s.withReplies r) = .next (s'.withReplies r)) :
    AppendsReplies s s' f :=
  ⟨[], by simp [hs], fun r => by simpa using hf r⟩

theorem exec_appendsReplies {s s' : State} {i : Instr} (h : exec i s = .next s') : AppendsReplies s s' (exec i) := by
  cases i with
  | read a =>
    cases h
    refine ⟨[busRead s a], rfl, fun r => ?_⟩
    rw [exec_read, busRead_withReplies]
    rfl
  | write a d =>
    cases h
    obtain ⟨-, -, hreplies, -⟩ := busWrite_frame s a d
    exact appendsReplies_of_silent hreplies fun r => by rw [exec_write, busWrite_withReplies]
  | nop | decrypt | encrypt | clrstat =>
    cases h
    exact appendsReplies_of_silent rfl fun _ => rfl

theorem step_appendsReplies {s s' : State} (h : step s = .next s') : AppendsReplies s s' step := by
  rcases step_cases s with ⟨_, e⟩ | ⟨hh, hi, e⟩ | ⟨rest, hh, hi, e⟩ | ⟨t, ts, rest, _, _, e⟩ | ⟨t, rest, hh, hi, e⟩ <;>
    rw [e] at h
  · cases h
  · cases h
    exact appendsReplies_of_silent rfl fun _ => step_idle hh hi
  · cases h
    exact appendsReplies_of_silent rfl fun _ => step_reset hh hi
  · cases h
  · obtain ⟨l, hl, hexec⟩ := exec_appendsReplies h
    exact ⟨l, hl, fun r => (step_transaction (s := s.withReplies r) hh hi).trans (hexec r)⟩

theorem run_appendsReplies {s s' : State} {n : Nat} (h : Host.Core.run core n s = .next s') :
    AppendsReplies s s' (Host.Core.run core n) := by
  induction n generalizing s with
  | zero =>
    cases h
    exact appendsReplies_of_silent rfl fun _ => rfl
  | succ n ih =>
    obtain ⟨t, hstep, hrun⟩ := run_succ_inv h
    obtain ⟨l, hl, hstep'⟩ := step_appendsReplies hstep
    obtain ⟨m, hm, hrun'⟩ := ih hrun
    refine ⟨l ++ m, by rw [hm, hl, List.append_assoc], fun r => ?_⟩
    rw [run_succ n (hstep' r), hrun', List.append_assoc]

/-- Equal blocks with equal inputs and hosts differ in what they have returned only. -/
theorem eq_withReplies {s u : State} (h : Safety.SameBlock s u) (hi : s.inputs = u.inputs) (hh : s.hosts = u.hosts) :
    u = s.withReplies u.replies := by
  obtain ⟨hk, hd, ho, hl, hc⟩ := h
  simp only [State.withReplies, hk, hd, ho, hl, hc, hi, hh]

end Sys2Proof.Machine

open Sys2Proof Sys2Proof.Machine Sys2Proof.Safety

/-- Settles O49: the second machine is the first with other bytes returned before. -/
theorem behaviourDependsOnlyOnTheBlock : Obligations.BehaviourDependsOnlyOnTheBlock := by
  unfold Obligations.BehaviourDependsOnlyOnTheBlock
  intro s u s' n hblock hi hh hrun
  obtain ⟨l, hl, hrun'⟩ := run_appendsReplies hrun
  have hu : Host.Core.run core n u = .next (s'.withReplies (u.replies ++ l)) := by
    rw [eq_withReplies hblock hi hh]
    exact hrun' u.replies
  exact ⟨_, l, hu, ⟨rfl, rfl, rfl, rfl, rfl⟩, rfl, hl, rfl⟩
end

section
/-! ### Reset and single steps (R33, R36, R49) -/

namespace Sys2Proof

/-- The decoder reads the encoder's record of a well-formed instruction as that instruction (R65, R67). -/
theorem decode_encode {i : Instr} (h : i.wf = true) : decode (encode i) = i := by
  cases i with
  | read a => exact decode_readRecord a
  | write a d =>
    rw [encode, decode_writeRecord]
    by_cases ha : a = cmdAddr
    · subst ha
      have hd : decodeCmd8 d = none := by
        rcases decodeCmd8_cases d with ⟨rfl, _⟩ | ⟨rfl, _⟩ | ⟨rfl, _⟩ | ⟨rfl, _⟩ | ⟨_, hd⟩
        case inr.inr.inr.inr => exact hd
        all_goals cases h
      exact decodeWrite_illegal hd
    · exact decodeWrite_of_ne d ha
  | nop | decrypt | encrypt | clrstat => rfl

end Sys2Proof

open Sys2Proof Sys2Proof.Machine

/-- Settles O9: the reset state is evaluated, its table aside. -/
theorem resetLeavesTheListedValues : Obligations.ResetLeavesTheListedValues := by
  unfold Obligations.ResetLeavesTheListedValues
  refine ⟨fun i => ?_, rfl, busRead_reset_status, by decide, by decide, by decide, by decide, rfl, fun _ => rfl,
    by decide⟩
  exact ⟨Bytes8.get_zero i, Bytes8.get_zero i, Bytes8.get_zero i⟩

/-- Settles O12: the step of a transaction, then the round trip of the encoder's record. -/
theorem stepRunsTheDecodedTransaction : Obligations.StepRunsTheDecodedTransaction := by
  unfold Obligations.StepRunsTheDecodedTransaction
  intro s t i rest hh hi
  have hstep : step s = exec (decode t) (s.setInputs rest) := step_transaction hh hi
  refine ⟨hstep, fun hwf ht => ?_⟩
  rw [hstep, ht, decode_encode hwf]
  rfl

/-- Settles O14: the idle step. -/
theorem noInputLeavesTheState : Obligations.NoInputLeavesTheState := by
  unfold Obligations.NoInputLeavesTheState
  exact fun _ => step_idle
end

section
/-! ### Stage 1 (R32, R90) -/

open Sys2Proof

/-- Settles O28: the scatter is the gather along `P`, which is its own inverse. -/
theorem shuffleMovesByteToItsPosition : Obligations.ShuffleMovesByteToItsPosition := by
  unfold Obligations.ShuffleMovesByteToItsPosition
  refine ⟨by decide, P_P, fun f => ⟨fun i => ?_, shuffle_get f, rfl, Bytes8.ext_get fun i => ?_⟩⟩
  · rw [shuffle_get, P_P]
  · rw [shuffle_get, shuffle_get, P_P]
end

section
/-! ### One input at a time (R47, R49)

What an input does to the block does not depend on the inputs after it, and from a safe state every step goes on. -/

namespace Sys2Proof.Machine

theorem busRead_setInputs (s : State) (a : Addr) (l : List Input) : busRead (s.setInputs l) a = busRead s a := by
  unfold busRead
  cases regAt a <;> rfl

/-- An instruction does not look at what is still to be taken, and leaves the number of hosts. -/
theorem exec_setInputs (i : Instr) (s : State) :
    ∃ t : State, t.hosts = s.hosts ∧ ∀ l, exec i (s.setInputs l) = .next (t.setInputs l) := by
  cases i with
  | read a =>
    refine ⟨s.pushReply (busRead s a), rfl, fun l => ?_⟩
    rw [exec_read, busRead_setInputs]
    rfl
  | write a d =>
    obtain ⟨-, -, -, hhosts⟩ := busWrite_frame s a d
    refine ⟨busWrite s a d, hhosts, fun l => ?_⟩
    rw [exec_write, busWrite_setInputs]
  | nop => exact ⟨doNop s, rfl, fun _ => rfl⟩
  | decrypt => exact ⟨doDecrypt s, rfl, fun _ => rfl⟩
  | encrypt => exact ⟨doEncrypt s, rfl, fun _ => rfl⟩
  | clrstat => exact ⟨doClrstat s, rfl, fun _ => rfl⟩

end Sys2Proof.Machine

namespace Sys2Proof.Safety

open Machine

/-- A step takes exactly a clean oldest input, and does the same whatever stands behind it. -/
theorem step_takes_input {s : State} {x : Input} (hh : s.hosts ≤ 1) (hx : clean x = true) :
    ∃ t : State, t.hosts ≤ 1 ∧ ∀ rest, step (s.setInputs (x :: rest)) = .next (t.setInputs rest) := by
  cases x with
  | transaction r =>
    obtain ⟨t, hhosts, hexec⟩ := exec_setInputs (decode r) s
    refine ⟨t, hhosts ▸ hh, fun rest => ?_⟩
    have hstep : step (s.setInputs (.transaction r :: rest)) = exec (decode r) (s.setInputs rest) :=
      step_transaction hh rfl
    exact hstep.trans (hexec rest)
  | reset during =>
    obtain rfl : during = [] := List.isEmpty_iff.mp hx
    exact ⟨resetEvent s, hh, fun rest => step_reset hh rfl⟩

/-- As many steps as there are inputs in front take exactly those, whatever stands behind them. -/
theorem run_takes_inputs {s : State} {xs : List Input} (hh : s.hosts ≤ 1) (hxs : xs.all clean = true) :
    ∃ t : State, ∀ ys, Host.Core.run core xs.length (s.setInputs (xs ++ ys)) = .next (t.setInputs ys) := by
  induction xs generalizing s with
  | nil => exact ⟨s, fun _ => rfl⟩
  | cons x xs ih =>
    obtain ⟨hx, hxs⟩ := Bool.and_eq_true_iff.mp hxs
    obtain ⟨u, hu, hstep⟩ := step_takes_input hh hx
    obtain ⟨t, hrun⟩ := ih hu hxs
    exact ⟨t, fun ys => (run_succ xs.length (hstep (xs ++ ys))).trans (hrun ys)⟩

theorem safe_step {s : State} (h : Safe s) : ∃ t, step s = .next t ∧ Safe t := by
  obtain ⟨hh, hclean⟩ := h
  cases hi : s.inputs with
  | nil => exact ⟨s, step_idle hh hi, hh, hclean⟩
  | cons x rest =>
    rw [hi] at hclean
    obtain ⟨hx, hrest⟩ := Bool.and_eq_true_iff.mp hclean
    obtain ⟨t, ht, hstep⟩ := step_takes_input hh hx
    have hs : s.setInputs (x :: rest) = s := by rw [← hi]; rfl
    exact ⟨t.setInputs rest, hs ▸ hstep rest, ht, hrest⟩

theorem safe_run {s : State} (h : Safe s) (n : Nat) : ∃ t, Host.Core.run core n s = .next t ∧ Safe t := by
  induction n generalizing s with
  | zero => exact ⟨s, rfl, h⟩
  | succ n ih =>
    obtain ⟨u, hstep, hu⟩ := safe_step h
    rw [run_succ n hstep]
    exact ih hu

end Sys2Proof.Safety

open Sys2Proof Sys2Proof.Machine Sys2Proof.Safety

/-- Settles O16: the oldest input of a safe state is clean, so the step takes it and leaves the others; then by
induction on the number of steps. -/
theorem safeStatesRunForever : Obligations.SafeStatesRunForever := by
  unfold Obligations.SafeStatesRunForever
  exact fun s h => ⟨safe_step h, safe_run h⟩

/-- Settles O18: by induction on the inputs in front, each of which does the same whatever stands behind it. -/
theorem inputsTakeEffectInIssueOrder : Obligations.InputsTakeEffectInIssueOrder := by
  unfold Obligations.InputsTakeEffectInIssueOrder
  rintro s xs ys ⟨hh, hclean⟩ hi
  rw [hi, List.all_append] at hclean
  obtain ⟨hxs, -⟩ := Bool.and_eq_true_iff.mp hclean
  obtain ⟨t, hrun⟩ := run_takes_inputs hh hxs
  have hs : s.setInputs (xs ++ ys) = s := by rw [← hi]; rfl
  have halone : s.setInputs (xs ++ []) = { s with inputs := xs } := by rw [List.append_nil]; rfl
  exact ⟨t, hs ▸ hrun ys, halone ▸ hrun []⟩

/-- Settles O15: the reset state has one host, and no reset is among the transactions. -/
theorem resetStateIsSafe : Obligations.ResetStateIsSafe := by
  unfold Obligations.ResetStateIsSafe
  refine ⟨⟨le_rfl, rfl⟩, fun l => ⟨le_rfl, ?_⟩⟩
  rw [List.all_map]
  exact List.all_eq_true.mpr fun _ _ => rfl

/-- Settles O11: of the five things a step can do, two stop it, each with its own reason. -/
theorem stopsExactlyWhereTheSpecRefuses : Obligations.StopsExactlyWhereTheSpecRefuses := by
  unfold Obligations.StopsExactlyWhereTheSpecRefuses
  refine fun s => ⟨nofun, ?_⟩
  rcases step_cases s with ⟨hh, e⟩ | ⟨hh, hi, e⟩ | ⟨rest, hh, hi, e⟩ | ⟨t, ts, rest, hh, hi, e⟩ | ⟨t, rest, hh, hi, e⟩
  · simp [e, hh]
  · simp [e, hi, hh]
  · simp [e, hi, hh]
  · simp [e, hi, hh]
  · obtain ⟨u, hu⟩ := exec_next (decode t) (s.setInputs rest)
    simp [e, hu, hi, hh]
end

section
/-! ### READ and WRITE at every address (R42, R48) -/

namespace Sys2Proof.Machine

theorem busRead_reserved (s : State) {a : Addr} (h : 0x1A ≤ a.toNat) : busRead s a = 0x00 := by
  simp only [busRead, regAt_reserved a h]

theorem busWrite_reserved (s : State) {a : Addr} (d : Byte) (h : 0x1A ≤ a.toNat) : busWrite s a d = s := by
  simp only [busWrite, regAt_reserved a h]

/-- A command repeated finds `KEY` and `DIN` as they were, so it writes the same again. -/
theorem execute_execute (s : State) (c : Byte) : execute (execute s c) c = execute s c := by
  unfold execute
  cases decodeCmd8 c with
  | none => rfl
  | some k => cases k <;> rfl

theorem busWrite_busWrite (s : State) (a : Addr) (d : Byte) : busWrite (busWrite s a d) a d = busWrite s a d := by
  unfold busWrite
  cases regAt a with
  | key i => simp only [State.setKeyByte, Bytes8.set_set]
  | din i => simp only [State.setDinByte, Bytes8.set_set]
  | cmd => exact execute_execute s d
  | dout | status | reserved => rfl

end Sys2Proof.Machine

open Sys2Proof Sys2Proof.Machine

/-- Settles O23: `BusRead` and `BusWrite` at a reserved address. -/
theorem reservedAddressesAreInert : Obligations.ReservedAddressesAreInert := by
  unfold Obligations.ReservedAddressesAreInert
  intro s a d ha
  rw [exec_read, busRead_reserved s ha, exec_write, busWrite_reserved s d ha]
  exact ⟨rfl, rfl⟩

/-- Settles O25: nothing read depends on the replies, `BusWrite` by the kind of register, and `BusWrite` repeated. -/
theorem readsArePureAndWritesRepeat : Obligations.ReadsArePureAndWritesRepeat := by
  unfold Obligations.ReadsArePureAndWritesRepeat
  refine fun s => ⟨fun a => ⟨busRead s a, exec_read s a, ?_, busRead_withReplies s _⟩, fun i d => ⟨?_, ?_⟩,
    fun c => ?_, fun a d hlo hne => ?_, fun a d t h => ?_⟩
  · have hagain := busRead_withReplies s (s.replies ++ [busRead s a]) a
    rw [State.withReplies] at hagain
    rw [exec_read, hagain, List.append_assoc]
    rfl
  · rw [exec_write, busWrite_of_regAt_key (a := keyAddr i) s d (regAt_keyAddr i)]
    rfl
  · rw [exec_write, busWrite_of_regAt_din (a := dinAddr i) s d (regAt_dinAddr i)]
    rfl
  · rw [exec_write, busWrite_cmd]
  · by_cases hres : 0x1A ≤ a.toNat
    · rw [exec_write, busWrite_reserved s d hres]
    · exact writeToReadOnlyRegistersIsDropped s a d (by omega)
  · rw [exec_write] at h
    cases h
    rw [exec_write, busWrite_busWrite]
end

section
/-! ### A READ after a command (R47, R50) -/

namespace Sys2Proof.Machine

theorem busRead_of_regAt_dout (s : State) {a : Addr} {i : Lane} (h : regAt a = .dout i) :
    busRead s a = s.dout.get i := by simp only [busRead, h]

/-- A READ of `DOUT[i]` in the second step returns what the first step left there. -/
theorem run_then_read_dout {s u : State} {i : Lane} {rest : List Input} (hstep : step s = .next u)
    (hh : u.hosts ≤ 1) (hi : u.inputs = .transaction (readRecord (0x10 + BitVec.ofNat 8 i.val)) :: rest) :
    ∃ t, Host.Core.run core 2 s = .next t ∧ t.inputs = rest ∧ t.replies = u.replies ++ [u.dout.get i] := by
  have hread := step_transaction hh hi
  rw [decode_readRecord, exec_read, busRead_of_regAt_dout _ (regAt_doutAddr i)] at hread
  exact ⟨_, (run_succ 1 hstep).trans (run_succ 0 hread), rfl, rfl⟩

end Sys2Proof.Machine

open Sys2Proof Sys2Proof.Machine

/-- Settles O50: the first step is the command, whole, and the second reads what it left in `DOUT`. -/
theorem readAfterCommandSeesItsResult : Obligations.ReadAfterCommandSeesItsResult := by
  unfold Obligations.ReadAfterCommandSeesItsResult
  refine fun s i rest hh => ⟨fun hi => ?_, fun hi => ?_⟩
  · have hdecrypt : decode 0x11801#17 = .decrypt := by decide
    have hstep : step s = exec .decrypt (s.setInputs _) := hdecrypt ▸ step_transaction hh hi
    exact run_then_read_dout hstep hh rfl
  · have hencrypt : decode 0x11802#17 = .encrypt := by decide
    have hstep : step s = exec .encrypt (s.setInputs _) := hencrypt ▸ step_transaction hh hi
    exact run_then_read_dout hstep hh rfl
end

section
/-! ### Addresses and the host's side of them (R40, R43, R44, R53) -/

namespace Sys2Proof.Machine

theorem toNat_keyAddr (i : Lane) : (keyAddr i).toNat = i.val := by revert i; decide

theorem toNat_dinAddr (i : Lane) : (dinAddr i).toNat = 0x08 + i.val := by revert i; decide

theorem toNat_doutAddr (i : Lane) : (doutAddr i).toNat = 0x10 + i.val := by revert i; decide

theorem blockAddr_base_add (base : Nat) (a : Addr) : blockAddr base (base + a.toNat) = some a := by
  have ha := a.isLt
  rw [blockAddr, if_pos (by omega), Nat.add_sub_cancel_left, BitVec.ofNat_toNat, BitVec.setWidth_eq]

theorem blockAddr_outside {base hostAddr : Nat} (h : hostAddr < base ∨ base + 0x100 ≤ hostAddr) :
    blockAddr base hostAddr = none := by
  rw [blockAddr, if_neg (by omega)]

end Sys2Proof.Machine

open Sys2Proof Sys2Proof.Machine Sys2Proof.Safety

/-- Settles O8: the numbers of the addresses, and the encoder's records. -/
theorem registerNamesStandForTheirAddresses : Obligations.RegisterNamesStandForTheirAddresses := by
  unfold Obligations.RegisterNamesStandForTheirAddresses
  exact ⟨fun i => ⟨toNat_keyAddr i, toNat_dinAddr i, toNat_doutAddr i⟩, rfl, rfl, fun _ _ => ⟨rfl, rfl⟩⟩

/-- Settles O27: the offset in the window is the block address, and the record is the encoder's. -/
theorem baseOffsetReachesTheBlock : Obligations.BaseOffsetReachesTheBlock := by
  unfold Obligations.BaseOffsetReachesTheBlock
  intro base hostAddr a d
  have hreach := blockAddr_base_add base a
  refine ⟨hreach, blockAddr_outside, ?_, ?_⟩ <;> simp only [hostRecord, hreach, encode]

/-- Settles O51: the low byte has no bit from 8 up, so the OR is a sum. -/
theorem frameValueIsBigEndian : Obligations.FrameValueIsBigEndian := by
  unfold Obligations.FrameValueIsBigEndian
  intro dout
  have hhigh := (dout.get 1).isLt
  have hlow := (dout.get 2).isLt
  have hor := or_eq_add_of_lt (x := (dout.get 2).toNat) (n := 8) (dout.get 1).toNat hlow
  simp only [frameValue, zext16, BitVec.toNat_or, BitVec.toNat_shiftLeft, BitVec.toNat_setWidth, Nat.shiftLeft_eq]
  rw [Nat.mod_eq_of_lt (a := (dout.get 1).toNat) (by omega), Nat.mod_eq_of_lt (a := (dout.get 2).toNat) (by omega),
    Nat.mod_eq_of_lt (a := _ * 2 ^ 8) (by omega), Nat.or_comm, hor]
  omega
end

section
/-! ### Record and bytes of an instruction (R60, R61, R65) -/

namespace Sys2Proof

/-- The bytes of an instruction's record hold that record, and decode as it does. -/
theorem decodeBytes_encodeBytes (i : Instr) : decodeBytes (encodeBytes i) = .ok (decode (encode i)) := by
  rw [decodeBytes, encodeBytes, recordOfBytes_fields]

end Sys2Proof

open Sys2Proof

/-- Settles O1: the round trip through the record, and the bytes hold that record. -/
theorem decodeOfEncodeIsTheInstruction : Obligations.DecodeOfEncodeIsTheInstruction := by
  unfold Obligations.DecodeOfEncodeIsTheInstruction
  intro i hwf
  exact ⟨decode_encode hwf, by rw [decodeBytes_encodeBytes, decode_encode hwf]⟩
end

section
/-! ### Command bytes, by number and by field (R62, R63) -/

namespace Sys2Proof

theorem rsvField_toNat (c : Byte) : (rsvField c).toNat = c.toNat / 8 := by
  have hc := c.isLt
  rw [rsvField, BitVec.extractLsb'_toNat, Nat.shiftRight_eq_div_pow, Nat.mod_eq_of_lt (by omega)]

theorem opField_toNat (c : Byte) : (opField c).toNat = c.toNat % 8 := by
  rw [opField, BitVec.extractLsb'_toNat, Nat.shiftRight_zero]

/-- `RSV` and `OP` are the whole of a command byte. -/
theorem eq_of_rsvField_of_opField {c d : Byte} (hrsv : rsvField c = rsvField d) (hop : opField c = opField d) :
    c = d := by
  have hhigh := congrArg BitVec.toNat hrsv
  have hlow := congrArg BitVec.toNat hop
  rw [rsvField_toNat, rsvField_toNat] at hhigh
  rw [opField_toNat, opField_toNat] at hlow
  exact BitVec.eq_of_toNat_eq (by omega)

theorem decodeCmd8_eq_none_iff_le (c : Byte) : decodeCmd8 c = none ↔ 0x04 ≤ c.toNat := by
  rcases decodeCmd8_cases c with ⟨rfl, -⟩ | ⟨rfl, -⟩ | ⟨rfl, -⟩ | ⟨rfl, -⟩ | ⟨hle, hd⟩
  case inr.inr.inr.inr => exact iff_of_true hd hle
  all_goals decide

/-- A command byte is illegal by its fields: `RSV` is not zero, or `OP` is 100 or above. -/
theorem decodeCmd8_eq_none_iff_fields (c : Byte) :
    decodeCmd8 c = none ↔ rsvField c ≠ 0b00000#5 ∨ 4 ≤ (opField c).toNat := by
  rw [decodeCmd8_eq_none_iff_le, Ne, ← BitVec.toNat_inj, rsvField_toNat, opField_toNat, BitVec.toNat_ofNat]
  omega

theorem decodeCmd8_byte (k : Command) : decodeCmd8 k.byte = some k := by cases k <;> rfl

/-- Only its own byte decodes as a command. -/
theorem byte_of_decodeCmd8 {c : Byte} {k : Command} (h : decodeCmd8 c = some k) : k.byte = c := by
  rcases decodeCmd8_cases c with ⟨rfl, hd⟩ | ⟨rfl, hd⟩ | ⟨rfl, hd⟩ | ⟨rfl, hd⟩ | ⟨-, hd⟩ <;>
    cases hd.symm.trans h <;> rfl

end Sys2Proof

open Sys2Proof

/-- Settles O4: the four commands' own bytes decode, and the others are illegal by their fields. -/
theorem commandBytesDecodeByOp : Obligations.CommandBytesDecodeByOp := by
  unfold Obligations.CommandBytesDecodeByOp
  exact ⟨decodeCmd8_byte .nop, decodeCmd8_byte .decrypt, decodeCmd8_byte .encrypt, decodeCmd8_byte .clrstat,
    decodeCmd8_eq_none_iff_fields⟩
end

section
/-! ### Decoding then encoding (R61, R65, R66) -/

namespace Sys2Proof

theorem decode_of_weField_false {t : Record} (h : weField t = false) : decode t = .read (addrField t) := by
  simp [decode, h]

theorem decode_of_weField_true {t : Record} (h : weField t = true) :
    decode t = decodeWrite (addrField t) (dataField t) := by
  simp [decode, h]

/-- What a WRITE decodes to, guards included. -/
theorem decodeWrite_cases (a : Addr) (d : Byte) :
    (∃ k, a = cmdAddr ∧ decodeCmd8 d = some k ∧ decodeWrite a d = k.toInstr) ∨
    ((a = cmdAddr → decodeCmd8 d = none) ∧ decodeWrite a d = .write a d) := by
  by_cases ha : a = cmdAddr
  · subst ha
    cases hd : decodeCmd8 d with
    | none => exact .inr ⟨fun _ => rfl, decodeWrite_illegal hd⟩
    | some k => exact .inl ⟨k, rfl, rfl, decodeWrite_command hd⟩
  · exact .inr ⟨fun h => absurd h ha, decodeWrite_of_ne d ha⟩

/-- A WRITE is well formed where it is no command under another name. -/
theorem wf_write_iff (a : Addr) (d : Byte) :
    (Instr.write a d).wf = true ↔ (a = cmdAddr → decodeCmd8 d = none) := by
  rw [decodeCmd8_eq_none_iff_le]
  simp [Instr.wf, cmdAddr, Nat.lt_iff_add_one_le, imp_iff_not_or]

theorem wf_toInstr (k : Command) : k.toInstr.wf = true := by cases k <;> rfl

theorem encode_toInstr (k : Command) : encode k.toInstr = writeRecord cmdAddr k.byte := by cases k <;> rfl

theorem wf_decodeWrite (a : Addr) (d : Byte) : (decodeWrite a d).wf = true := by
  rcases decodeWrite_cases a d with ⟨k, -, -, e⟩ | ⟨hlegal, e⟩ <;> rw [e]
  · exact wf_toInstr k
  · exact (wf_write_iff a d).mpr hlegal

theorem encode_decodeWrite (a : Addr) (d : Byte) : encode (decodeWrite a d) = writeRecord a d := by
  rcases decodeWrite_cases a d with ⟨k, rfl, hd, e⟩ | ⟨-, e⟩ <;> rw [e]
  · rw [encode_toInstr, byte_of_decodeCmd8 hd]
  · rfl

/-- A record with `WE = 0` is the READ of its own address, its `DATA` aside. -/
theorem readRecord_addrField {t : Record} (h : weField t = false) : readRecord (addrField t) = t &&& 0x1FF00#17 := by
  have h' : t[16] = false := h
  apply BitVec.eq_of_getLsbD_eq
  intro i hi
  simp only [addrField, readRecord, BitVec.getLsbD_extractLsb', BitVec.getLsbD_and, BitVec.getLsbD_shiftLeft,
    BitVec.getLsbD_setWidth]
  interval_cases i <;> simp [h']

end Sys2Proof

open Sys2Proof

/-- Settles O2: by `WE`, a READ loses its `DATA` only, and a WRITE, a command among them, nothing. -/
theorem encodeOfDecodeIsTheRecord : Obligations.EncodeOfDecodeIsTheRecord := by
  unfold Obligations.EncodeOfDecodeIsTheRecord
  intro t
  change _ ∧ _ = if weField t = true then t else _
  cases hwe : weField t with
  | false =>
    rw [decode_of_weField_false hwe]
    exact ⟨rfl, readRecord_addrField hwe⟩
  | true =>
    rw [decode_of_weField_true hwe, encode_decodeWrite, writeRecord_fields t hwe]
    exact ⟨wf_decodeWrite _ _, rfl⟩
end

section
/-! ### Decoding by fields (R61, R62, R65, R66) -/

namespace Sys2Proof

theorem rsvField_dataField (t : Record) : rsvField (dataField t) = t.extractLsb' 3 5 := by
  rw [rsvField, dataField, BitVec.extractLsb'_extractLsb'_of_le (by decide)]

theorem opField_dataField (t : Record) : opField (dataField t) = t.extractLsb' 0 3 := by
  rw [opField, dataField, BitVec.extractLsb'_extractLsb'_of_le (by decide)]

/-- A WRITE to `CMD` whose fields are a command's decodes as that command. -/
theorem decode_command {t : Record} (k : Command) (hwe : weField t = true) (ha : addrField t = cmdAddr)
    (hrsv : t.extractLsb' 3 5 = rsvField k.byte) (hop : t.extractLsb' 0 3 = opField k.byte) :
    decode t = k.toInstr := by
  have hbyte : dataField t = k.byte :=
    eq_of_rsvField_of_opField ((rsvField_dataField t).trans hrsv) ((opField_dataField t).trans hop)
  rw [decode_of_weField_true hwe, ha, hbyte, decodeWrite_command (decodeCmd8_byte k)]

/-- A WRITE to `CMD` whose fields are no command's stays the WRITE of its byte. -/
theorem decode_illegal {t : Record} (hwe : weField t = true) (ha : addrField t = cmdAddr)
    (h : t.extractLsb' 3 5 ≠ 0b00000#5 ∨ 4 ≤ (t.extractLsb' 0 3).toNat) :
    decode t = .write cmdAddr (dataField t) := by
  rw [← rsvField_dataField, ← opField_dataField, ← decodeCmd8_eq_none_iff_fields] at h
  rw [decode_of_weField_true hwe, ha, decodeWrite_illegal h]

end Sys2Proof

open Sys2Proof

/-- Settles O3: by `WE`, then `ADDR`, then the fields of the command byte. -/
theorem recordDecodesByItsFields : Obligations.RecordDecodesByItsFields := by
  unfold Obligations.RecordDecodesByItsFields
  refine fun t => ⟨decode_of_weField_false, fun hwe ha => ?_, fun hwe ha =>
    ⟨decode_command .nop hwe ha, decode_command .decrypt hwe ha, decode_command .encrypt hwe ha,
      decode_command .clrstat hwe ha, decode_illegal hwe ha⟩⟩
  exact (decode_of_weField_true hwe).trans (decodeWrite_of_ne (dataField t) ha)

/-- Settles O5: each worked record is evaluated. -/
theorem workedEncodingsDecode : Obligations.WorkedEncodingsDecode := by
  unfold Obligations.WorkedEncodingsDecode
  decide
end

section
/-! ### Records as numbers (R61, R63, R67) -/

namespace Sys2Proof

theorem readRecord_toNat (a : Addr) : (readRecord a).toNat = a.toNat * 2 ^ 8 := by
  have ha := a.isLt
  rw [readRecord, BitVec.toNat_shiftLeft, BitVec.toNat_setWidth, Nat.shiftLeft_eq,
    Nat.mod_eq_of_lt (a := a.toNat) (by omega), Nat.mod_eq_of_lt (by omega)]

/-- The three fields share no bit, so the ORs are sums. -/
theorem writeRecord_toNat (a : Addr) (d : Byte) :
    (writeRecord a d).toNat = 2 ^ 16 + a.toNat * 2 ^ 8 + d.toNat := by
  have ha := a.isLt
  have hd := d.isLt
  have hlow := or_eq_add_of_lt (n := 8) a.toNat hd
  have hhigh := or_eq_add_of_lt (x := d.toNat + a.toNat * 2 ^ 8) (n := 16) 1 (by omega)
  have haddr : (a.setWidth 17 <<< 8).toNat = a.toNat * 2 ^ 8 := readRecord_toNat a
  calc (writeRecord a d).toNat
      = (1 * 2 ^ 16 ||| a.toNat * 2 ^ 8) ||| d.toNat := by
        rw [writeRecord, BitVec.toNat_or, BitVec.toNat_or, haddr, BitVec.toNat_setWidth,
          Nat.mod_eq_of_lt (a := d.toNat) (by omega)]
        rfl
    _ = (d.toNat ||| a.toNat * 2 ^ 8) ||| 1 * 2 ^ 16 := by
        rw [Nat.or_assoc, Nat.or_comm, Nat.or_comm d.toNat]
    _ = 2 ^ 16 + a.toNat * 2 ^ 8 + d.toNat := by
        rw [hlow, hhigh]
        omega

end Sys2Proof

open Sys2Proof

/-- Settles O6: a command's record is the WRITE of its byte to `CMD`. -/
theorem recordNumberOfEachInstruction : Obligations.RecordNumberOfEachInstruction := by
  unfold Obligations.RecordNumberOfEachInstruction
  exact ⟨readRecord_toNat, writeRecord_toNat, writeRecord_toNat cmdAddr 0x00, writeRecord_toNat cmdAddr 0x01,
    writeRecord_toNat cmdAddr 0x02, writeRecord_toNat cmdAddr 0x03⟩
end

section
/-! ### Words of the opcode table (R60, R65) -/

namespace Sys2Proof

/-- A field of a number that fits is a quotient of it. -/
theorem extractLsb'_ofNat {n w : Nat} (h : w < 2 ^ n) (start len : Nat) :
    (BitVec.ofNat n w).extractLsb' start len = BitVec.ofNat len (w / 2 ^ start) := by
  rw [BitVec.extractLsb', BitVec.toNat_ofNat, Nat.mod_eq_of_lt h, Nat.shiftRight_eq_div_pow]

theorem recordOfBytes_one (d : Byte) (a : Addr) : recordOfBytes [d, a, 1] = .ok (writeRecord a d) := rfl

/-- The bytes of a `CMD8` word hold the WRITE to `CMD` of that byte. -/
theorem recordOfBytes_cmd8Word {w : Nat} (h : w < 2 ^ 8) :
    recordOfBytes (bytesOfTableWord 8 w) = .ok (recordOfTableWord 8 w) := by
  have hbytes : bytesOfTableWord 8 w = [BitVec.ofNat 8 w, cmdAddr, 1] := by
    simp only [bytesOfTableWord, le_refl, h, if_true, List.append_nil]
  rw [hbytes, recordOfBytes_one]
  rfl

/-- The bytes of a 17-bit `BUS17` word are the fields of the record of that number. -/
theorem recordOfBytes_bus17Word {w : Nat} (h : w < 2 ^ 17) :
    recordOfBytes (bytesOfTableWord 24 w) = .ok (recordOfTableWord 24 w) := by
  have hbytes : bytesOfTableWord 24 w =
      [BitVec.ofNat 8 w, BitVec.ofNat 8 (w / 2 ^ 8), BitVec.ofNat 8 (w / 2 ^ 16)] := by
    simp [bytesOfTableWord, show w < 16777216 by omega]
  have hdata : dataField (BitVec.ofNat 17 w) = BitVec.ofNat 8 w := by
    rw [dataField, extractLsb'_ofNat h, pow_zero, Nat.div_one]
  have haddr : addrField (BitVec.ofNat 17 w) = BitVec.ofNat 8 (w / 2 ^ 8) := extractLsb'_ofNat h 8 8
  have hwe : ((BitVec.ofNat 17 w).extractLsb' 16 1).setWidth 8 = BitVec.ofNat 8 (w / 2 ^ 16) := by
    rw [extractLsb'_ofNat h, BitVec.setWidth_ofNat_of_le_of_lt (by decide) (by omega)]
  rw [hbytes, ← hdata, ← haddr, ← hwe, recordOfBytes_fields]
  rfl

theorem decodeTableWord_of_record {nbits w : Nat} {t : Record} (h : recordOfBytes (bytesOfTableWord nbits w) = .ok t) :
    decodeTableWord nbits w = some (decode t) := by
  simp only [decodeTableWord, decodeBytes, h]

end Sys2Proof

namespace Sys2Proof.Machine

/-- The transaction placed is the next one taken, in a system of one host. -/
theorem step_withFetchWord (s : State) (nbits w : Nat) :
    step (s.withFetchWord nbits w) = exec (decode (recordOfTableWord nbits w)) { s with hosts := 1 } :=
  step_transaction (s := s.withFetchWord nbits w) le_rfl rfl

/-- Where a word's bytes hold its record, the step of the word placed is what the word decodes to. -/
theorem step_withFetchWord_of_decode {nbits w : Nat} {i : Instr} (s : State)
    (hrecord : recordOfBytes (bytesOfTableWord nbits w) = .ok (recordOfTableWord nbits w))
    (hdecode : decodeTableWord nbits w = some i) :
    step (s.withFetchWord nbits w) = exec i { s with hosts := 1 } := by
  rw [decodeTableWord_of_record hrecord] at hdecode
  cases hdecode
  exact step_withFetchWord s nbits w

end Sys2Proof.Machine

open Sys2Proof Sys2Proof.Machine

/-- Settles O13: for either length the word's bytes hold the record placed. -/
theorem fetchWordRunsTheTableWord : Obligations.FetchWordRunsTheTableWord := by
  unfold Obligations.FetchWordRunsTheTableWord
  exact fun s _ _ => ⟨fun hw => step_withFetchWord_of_decode s (recordOfBytes_bus17Word hw),
    fun hw => step_withFetchWord_of_decode s (recordOfBytes_cmd8Word hw)⟩
end

section
/-! ### Pseudo-instructions (R68) -/

namespace Sys2Proof.Asm

/-- A program with one record to each line. -/
theorem assemble_map {α : Type} {line : α → Line} {record : α → Record} (h : ∀ x, (line x).records = [record x])
    (l : List α) : assemble (l.map line) = l.map record := by
  rw [assemble, List.flatMap_map, List.map_eq_flatMap]
  exact List.flatMap_congr fun x _ => h x

/-- `LDKEY` is a `WR` to each `KEY` byte in order. -/
theorem records_ldkey (k : List Byte) :
    (Line.ldkey k).records = assemble ((lanes.zip k).map fun p => .wr (.key p.1) p.2) :=
  (assemble_map (fun _ => rfl) _).symm

/-- `LDIN` is a `WR` to each `DIN` byte in order. -/
theorem records_ldin (b : List Byte) :
    (Line.ldin b).records = assemble ((lanes.zip b).map fun p => .wr (.din p.1) p.2) :=
  (assemble_map (fun _ => rfl) _).symm

/-- `RDOUT` is an `RD` of each `DOUT` byte in order. -/
theorem records_rdout : Line.rdout.records = assemble (lanes.map fun i => .rd (.dout i)) :=
  (assemble_map (fun _ => rfl) _).symm

end Sys2Proof.Asm

open Sys2Proof

/-- Settles O7: the one-line pseudo-instructions are their records, and the others a line for each lane in order. -/
theorem pseudoInstructionsExpand : Obligations.PseudoInstructionsExpand := by
  unfold Obligations.PseudoInstructionsExpand
  exact ⟨rfl, rfl, rfl, rfl, fun _ _ _ _ _ _ _ _ => Asm.records_ldkey _, fun _ _ _ _ _ _ _ _ => Asm.records_ldin _,
    Asm.records_rdout, rfl⟩
end

section
/-! ### What a READ returns (R80) -/

namespace Sys2Proof.Machine

@[simp] theorem busRead_cmd (s : State) : busRead s 0x18 = 0x00 := by
  simp only [busRead, regAt_cmd]

/-- STATUS as a number: its four flags stand in different bits, so the ORs are a sum (R26). -/
theorem statusByte_toNat (dout : Bytes8) (ill : Bool) :
    (statusByte dout ill).toNat =
      (ckok dout).toNat + 2 * (tmok dout).toNat + 4 * (valid dout).toNat + 8 * ill.toNat := by
  unfold statusByte
  generalize ckok dout = x
  generalize tmok dout = y
  generalize valid dout = z
  revert x y z ill; decide

end Sys2Proof.Machine

open Sys2Proof Sys2Proof.Machine

/-- Settles O19: a READ appends what `BusRead` gives, which is said once for each kind of register. -/
theorem readReturnsTheAddressedByte : Obligations.ReadReturnsTheAddressedByte := by
  unfold Obligations.ReadReturnsTheAddressedByte
  refine fun s => ⟨fun i => ?key, fun i => ?din, fun i => ?dout, ?cmd, ⟨busRead s 0x19, exec_read s 0x19, ?status⟩,
    fun a ha => ?reserved⟩
  case key => rw [exec_read, busRead_of_regAt_key s (regAt_keyAddr i)]
  case din => rw [exec_read, busRead_of_regAt_din s (regAt_dinAddr i)]
  case dout => rw [exec_read, busRead_of_regAt_dout s (regAt_doutAddr i)]
  case cmd => rw [exec_read, busRead_cmd]
  case status => rw [busRead_status, statusByte_toNat]
  case reserved => rw [exec_read, busRead_reserved s ha]
end

section
/-! ### The key that a result was decrypted under (R91, R92, R94, R96)

Stages 3 and 5 are undone by the steps of R96, so a result and the table give back the mixed block, and the block
that was mixed gives back the key. -/

namespace Sys2Proof

/-- Adding the table back undoes stage 5 (R94, R96). -/
@[simp] theorem addBack_subtract (s3 ctmp : Bytes8) : addBack (subtract s3 ctmp) ctmp = s3 := by
  refine Bytes8.ext_get fun i => BitVec.eq_of_toNat_eq ?_
  have hx := (s3.get i).isLt
  have hy := (ctmp.get i).isLt
  rw [addBack_toNat, subtract_toNat]
  omega

/-- Splitting each byte and its successor undoes stage 3 (R92, R96). -/
@[simp] theorem rotSplit_rotCombine (s2 : Bytes8) : rotSplit (rotCombine s2) = s2 := by
  refine Bytes8.ext_get fun i => BitVec.eq_of_toNat_eq ?_
  have hx := (s2.get i).isLt
  have hy := (s2.get (i + 1)).isLt
  rw [rotSplit_toNat, rotCombine_toNat, rotCombine_toNat, add_sub_cancel_right]
  omega

/-- The first two steps of Encrypt take a result back to the block the key was mixed into (R96). -/
theorem rotSplit_addBack_decryptBlock (key f cs : Bytes8) :
    rotSplit (addBack (decryptBlock key f cs) (nibbleSwap cs)) = keyMix (shuffle f) key := by
  simp only [decryptBlock, addBack_subtract, rotSplit_rotCombine]

theorem keyMix_right_injective (s1 : Bytes8) : Function.Injective (keyMix s1) := by
  intro key key' h
  refine Bytes8.ext_get fun i => ?_
  have hi : s1.get i ^^^ key.get i = s1.get i ^^^ key'.get i := by rw [← keyMix_get, h, keyMix_get]
  exact (BitVec.xor_right_inj _).mp hi

/-- One block under one table has a different result for every key. -/
theorem decryptBlock_key_injective (f cs : Bytes8) : Function.Injective fun key => decryptBlock key f cs := by
  intro key key' (h : decryptBlock key f cs = decryptBlock key' f cs)
  apply keyMix_right_injective (shuffle f)
  rw [← rotSplit_addBack_decryptBlock key f cs, h, rotSplit_addBack_decryptBlock]

end Sys2Proof

namespace Sys2Proof.Machine

theorem exec_decrypt (s : State) : exec .decrypt s = .next (s.setDout (decryptBlock s.key s.din s.cstate)) := rfl

end Sys2Proof.Machine

open Sys2Proof Sys2Proof.Machine

/-- Settles O37: both results are Decrypt of one block under one table, which tells every two keys apart. -/
theorem anotherKeyGivesAnotherResult : Obligations.AnotherKeyGivesAnotherResult := by
  unfold Obligations.AnotherKeyGivesAnotherResult
  intro s t u v hu hv hdin hcstate
  rw [exec_decrypt] at hu hv
  cases hu
  cases hv
  rw [State.setDout_dout, State.setDout_dout, hdin, hcstate]
  exact (decryptBlock_key_injective t.din t.cstate).eq_iff
end

section
/-! ### Stages 2 to 5 (R91 to R94) -/

namespace Sys2Proof

/-- A byte array as one number, byte 0 most significant: no lane carries into the next (R16). -/
theorem word64_toNat (a : Bytes8) :
    a.word64.toNat = (a.get 0).toNat * 2 ^ 56 + (a.get 1).toNat * 2 ^ 48 + (a.get 2).toNat * 2 ^ 40 +
      (a.get 3).toNat * 2 ^ 32 + (a.get 4).toNat * 2 ^ 24 + (a.get 5).toNat * 2 ^ 16 +
      (a.get 6).toNat * 2 ^ 8 + (a.get 7).toNat := by
  have h (i : Lane) := (a.get i).isLt
  have h0 := h 0; have h1 := h 1; have h2 := h 2; have h3 := h 3
  have h4 := h 4; have h5 := h 5; have h6 := h 6; have h7 := h 7
  rw [Bytes8.word64, BitVec.toNat_ofNat, Nat.mod_eq_of_lt (by omega)]

/-- A right rotation by 3 over numbers: the low 3 bits come back on top (R16). -/
theorem rotr64_three_toNat (w : BitVec 64) : (rotr64 w 3).toNat = w.toNat / 8 + w.toNat % 8 * 2 ^ 61 := by
  have hw := w.isLt
  have hor := or_eq_add_of_lt (x := w.toNat / 2 ^ 3) (n := 61) (w.toNat % 8) (by omega)
  have htop : w.toNat <<< (64 - 3) % 2 ^ 64 = w.toNat % 8 * 2 ^ 61 := by rw [Nat.shiftLeft_eq]; omega
  rw [rotr64, BitVec.toNat_rotateRight, Nat.mod_eq_of_lt (by decide), htop, Nat.shiftRight_eq_div_pow, hor]
  rfl

/-- A left rotation by 3 over numbers: the top 3 bits come back below (R16). -/
theorem rotl64_three_toNat (w : BitVec 64) : (rotl64 w 3).toNat = w.toNat / 2 ^ 61 + w.toNat % 2 ^ 61 * 8 := by
  have hw := w.isLt
  have hor := or_eq_add_of_lt (x := w.toNat / 2 ^ 61) (n := 3) (w.toNat % 2 ^ 61) (by omega)
  have htop : w.toNat <<< 3 % 2 ^ 64 = w.toNat % 2 ^ 61 * 2 ^ 3 := by rw [Nat.shiftLeft_eq]; omega
  rw [rotl64, BitVec.toNat_rotateLeft, Nat.mod_eq_of_lt (a := 3) (by decide), htop, Nat.shiftRight_eq_div_pow,
    Nat.or_comm, hor]
  rfl

theorem rotl64_rotr64_three (w : BitVec 64) : rotl64 (rotr64 w 3) 3 = w := by
  have hw := w.isLt
  apply BitVec.eq_of_toNat_eq
  rw [rotl64_three_toNat, rotr64_three_toNat]
  omega

/-- Stage 3 in the 64-bit view: each byte takes its top bits from the byte before it (R92). -/
theorem word64_rotCombine (s2 : Bytes8) : (rotCombine s2).word64 = rotr64 s2.word64 3 := by
  have h (i : Lane) := (s2.get i).isLt
  have h0 := h 0; have h1 := h 1; have h2 := h 2; have h3 := h 3
  have h4 := h 4; have h5 := h 5; have h6 := h 6; have h7 := h 7
  apply BitVec.eq_of_toNat_eq
  rw [rotr64_three_toNat, word64_toNat, word64_toNat]
  simp only [rotCombine_toNat, Fin.reduceSub]
  omega

/-- The high nibble of a swapped byte (R93). -/
theorem nibbleSwap_div (cs : Bytes8) (i : Lane) : ((nibbleSwap cs).get i).toNat / 16 = (cs.get i).toNat % 16 := by
  have hbyte := (cs.get i).isLt
  rw [nibbleSwap_toNat, Nat.add_mul_div_right _ _ (by decide), Nat.div_eq_of_lt (by omega), zero_add]

/-- The low nibble of a swapped byte (R93). -/
theorem nibbleSwap_mod (cs : Bytes8) (i : Lane) : ((nibbleSwap cs).get i).toNat % 16 = (cs.get i).toNat / 16 := by
  have hbyte := (cs.get i).isLt
  rw [nibbleSwap_toNat, Nat.add_mul_mod_self_right, Nat.mod_eq_of_lt (by omega)]

end Sys2Proof

open Sys2Proof

/-- Settles O29: the XOR of two bytes, with the keys 0x00 and 0xFF. -/
theorem keyMixIsLaneXor : Obligations.KeyMixIsLaneXor := by
  unfold Obligations.KeyMixIsLaneXor
  intro s1 key i k
  rw [keyMix_get]
  refine ⟨BitVec.getLsbD_xor, fun hkey => ?_, fun hkey => ?_⟩
  · rw [hkey, BitVec.xor_zero]
  · rw [hkey]
    exact BitVec.xor_allOnes

/-- Settles O30: the fields and the rotation are quotients and remainders of the stage's numbers. -/
theorem rotCombineRotatesRightByThree : Obligations.RotCombineRotatesRightByThree := by
  unfold Obligations.RotCombineRotatesRightByThree
  refine fun s2 => ⟨fun i => ⟨?low, ?high⟩, word64_rotCombine s2, by decide, by decide⟩
  all_goals
    have hthis := (s2.get i).isLt
    have hprev := (s2.get (i - 1)).isLt
    apply BitVec.eq_of_toNat_eq
    simp only [BitVec.extractLsb'_toNat, rotCombine_toNat, Nat.shiftRight_eq_div_pow]
    omega

/-- Settles O31: the nibbles are quotient and remainder by 16 of the stage's numbers. -/
theorem nibbleSwapExchangesNibbles : Obligations.NibbleSwapExchangesNibbles := by
  unfold Obligations.NibbleSwapExchangesNibbles
  intro cs i
  have hbyte := (cs.get i).isLt
  have hhigh := nibbleSwap_div cs i
  have hlow := nibbleSwap_mod cs i
  simp only [← BitVec.toNat_inj, BitVec.extractLsb'_toNat, Nat.shiftRight_eq_div_pow, pow_zero, Nat.div_one]
  exact ⟨by omega, by omega, fun hequal => by omega⟩

/-- Settles O32: the intermediate is positive, so the natural subtraction of `subtract_toNat` loses nothing. -/
theorem subtractIsModulo256 : Obligations.SubtractIsModulo256 := by
  unfold Obligations.SubtractIsModulo256
  intro s3 ctmp i
  have hs3 := (s3.get i).isLt
  have hctmp := (ctmp.get i).isLt
  have hdiff := subtract_toNat s3 ctmp i
  exact ⟨by omega, by omega, hdiff, by omega⟩

/-- Settles O33: the stages' numbers, one after another. -/
theorem decryptLaneFormula : Obligations.DecryptLaneFormula := by
  unfold Obligations.DecryptLaneFormula
  intro key f cs i
  have hcs := (cs.get i).isLt
  rw [decryptBlock, subtract_toNat, rotCombine_toNat, nibbleSwap_toNat, keyMix_get, keyMix_get, shuffle_get,
    shuffle_get]
  omega
end

section
/-! ### The inverse transform (R96, R97)

Each step of R96 is undone by its stage as well as undoing it, so the two transforms cancel either way round. -/

namespace Sys2Proof

/-- Stage 5 takes off what was added back (R94, R96). -/
@[simp] theorem subtract_addBack (p ctmp : Bytes8) : subtract (addBack p ctmp) ctmp = p := by
  refine Bytes8.ext_get fun i => BitVec.eq_of_toNat_eq ?_
  have hp := (p.get i).isLt
  have hctmp := (ctmp.get i).isLt
  rw [subtract_toNat, addBack_toNat]
  omega

/-- Stage 3 puts together what was split (R92, R96). -/
@[simp] theorem rotCombine_rotSplit (t3 : Bytes8) : rotCombine (rotSplit t3) = t3 := by
  refine Bytes8.ext_get fun i => BitVec.eq_of_toNat_eq ?_
  have hthis := (t3.get i).isLt
  have hnext := (t3.get (i + 1)).isLt
  rw [rotCombine_toNat, rotSplit_toNat, rotSplit_toNat, sub_add_cancel]
  omega

/-- Mixing in the same key twice is nothing (R91). -/
@[simp] theorem keyMix_keyMix (s1 key : Bytes8) : keyMix (keyMix s1 key) key = s1 := by
  refine Bytes8.ext_get fun i => ?_
  rw [keyMix_get, keyMix_get, BitVec.xor_assoc, BitVec.xor_self, BitVec.xor_zero]

@[simp] theorem shuffle_unshuffle (t1 : Bytes8) : shuffle (unshuffle t1) = t1 := by
  refine Bytes8.ext_get fun i => ?_
  rw [shuffle_get, unshuffle_get, P_P]

@[simp] theorem unshuffle_shuffle (f : Bytes8) : unshuffle (shuffle f) = f := by
  refine Bytes8.ext_get fun i => ?_
  rw [unshuffle_get, shuffle_get, P_P]

@[simp] theorem decryptBlock_encryptBlock (key p cs : Bytes8) : decryptBlock key (encryptBlock key p cs) cs = p := by
  simp only [decryptBlock, encryptBlock, shuffle_unshuffle, keyMix_keyMix, rotCombine_rotSplit, subtract_addBack]

@[simp] theorem encryptBlock_decryptBlock (key f cs : Bytes8) : encryptBlock key (decryptBlock key f cs) cs = f := by
  simp only [encryptBlock, rotSplit_addBack_decryptBlock, keyMix_keyMix, unshuffle_shuffle]

/-- The inverse of stage 3 in the 64-bit view, since stage 3 is the rotation the other way (R96). -/
theorem word64_rotSplit (t3 : Bytes8) : (rotSplit t3).word64 = rotl64 t3.word64 3 := by
  have hright : t3.word64 = rotr64 (rotSplit t3).word64 3 := by rw [← word64_rotCombine, rotCombine_rotSplit]
  rw [hright, rotl64_rotr64_three]

end Sys2Proof

open Sys2Proof

/-- Settles O34: the two arrays are those of the first two steps of R96. -/
theorem encryptInvertsEachStage : Obligations.EncryptInvertsEachStage := by
  unfold Obligations.EncryptInvertsEachStage
  intro key p cs
  refine ⟨addBack p (nibbleSwap cs), rotSplit (addBack p (nibbleSwap cs)), addBack_toNat p _, rotSplit_toNat _,
    word64_rotSplit _, fun i => ?_⟩
  rw [encryptBlock, unshuffle_get, keyMix_get]

/-- Settles O35: every step of one transform cancels its step of the other, both ways round. -/
theorem decryptAndEncryptAreInverse : Obligations.DecryptAndEncryptAreInverse := by
  unfold Obligations.DecryptAndEncryptAreInverse
  refine fun k cs => ⟨fun x => ⟨decryptBlock_encryptBlock k x cs, encryptBlock_decryptBlock k x cs⟩, ?_⟩
  exact Function.bijective_iff_has_inverse.mpr ⟨fun x => encryptBlock k x cs,
    fun x => encryptBlock_decryptBlock k x cs, fun x => decryptBlock_encryptBlock k x cs⟩
end

section
/-! ### Which bytes a lane depends on (R105) -/

namespace Sys2Proof

theorem keyMix_get_congr {a b k l : Bytes8} {i : Lane} (ha : a.get i = b.get i) (hk : k.get i = l.get i) :
    (keyMix a k).get i = (keyMix b l).get i := by
  rw [keyMix_get, keyMix_get, ha, hk]

theorem nibbleSwap_get_congr {a b : Bytes8} {i : Lane} (h : a.get i = b.get i) :
    (nibbleSwap a).get i = (nibbleSwap b).get i := by
  simp only [nibbleSwap, Bytes8.get_ofFn, h]

theorem subtract_get_congr {a b k l : Bytes8} {i : Lane} (ha : a.get i = b.get i) (hk : k.get i = l.get i) :
    (subtract a k).get i = (subtract b l).get i := by
  simp only [subtract, Bytes8.get_ofFn, ha, hk]

/-- Stage 3 reads a lane and the one before it (R92). -/
theorem rotCombine_get_congr {a b : Bytes8} {i : Lane} (h : a.get i = b.get i)
    (hprev : a.get (i - 1) = b.get (i - 1)) : (rotCombine a).get i = (rotCombine b).get i := by
  simp only [rotCombine, Bytes8.get_ofFn, prevLane_eq, h, hprev]

/-- Lane `i` of Decrypt reads two bytes of the block, those that stage 1 brings to `i` and to the lane before. -/
theorem decryptBlock_get_congr (key cs : Bytes8) {f g : Bytes8} {i : Lane} (h : f.get (P i) = g.get (P i))
    (hprev : f.get (P (i - 1)) = g.get (P (i - 1))) :
    (decryptBlock key f cs).get i = (decryptBlock key g cs).get i := by
  rw [← shuffle_get, ← shuffle_get] at h hprev
  exact subtract_get_congr (rotCombine_get_congr (keyMix_get_congr h rfl) (keyMix_get_congr hprev rfl)) rfl

theorem P_ne_of_ne {i j : Lane} (h : i ≠ P j) : P i ≠ j := by
  rintro rfl
  exact h (P_P i).symm

end Sys2Proof

open Sys2Proof

/-- Settles O36: the two bytes that a lane of Decrypt reads are not byte `j` where the lane is neither `P j` nor the
next. -/
theorem oneInputByteReachesTwoLanes : Obligations.OneInputByteReachesTwoLanes := by
  unfold Obligations.OneInputByteReachesTwoLanes
  refine ⟨fun a b k l i ha hk =>
      ⟨keyMix_get_congr ha hk, nibbleSwap_get_congr ha, subtract_get_congr ha hk⟩,
    fun a i => ?_, fun a b i => rotCombine_get_congr, fun key f g cs j hfg i hi hnext => ?_⟩
  · rw [shuffle_get, P_P]
  · have hprev : i - 1 ≠ P j := fun h => hnext (sub_eq_iff_eq_add.mp h)
    exact decryptBlock_get_congr key cs (hfg _ (P_ne_of_ne hi)) (hfg _ (P_ne_of_ne hprev))
end

section
/-! ### The commands (R98 to R103, R107) -/

namespace Sys2Proof.Machine

/-- A command is the effect its byte selects (R63, R98). -/
theorem exec_toInstr (k : Command) (s : State) : exec k.toInstr s = .next (execute s k.byte) := by
  cases k <;> rfl

theorem exec_encrypt (s : State) : exec .encrypt s = .next (s.setDout (encryptBlock s.key s.din s.cstate)) := rfl

theorem exec_write_cmd (s : State) (c : Byte) : exec (.write 0x18 c) s = .next (execute s c) := by
  rw [exec_write, busWrite_cmd]

/-- An illegal command sets `ILL` (R103). -/
theorem exec_write_illegal (s : State) {c : Byte} (h : 0x04 ≤ c.toNat) :
    exec (.write 0x18 c) s = .next (s.setIll true) := by
  rw [exec_write_cmd, execute_illegal s ((decodeCmd8_eq_none_iff_le c).mpr h)]

theorem setIll_eq_self {s : State} {b : Bool} (h : s.ill = b) : s.setIll b = s := by
  subst h
  rfl

/-- Only STATUS reads `ILL`. -/
theorem busRead_setIll_of_ne (s : State) (b : Bool) {a : Addr} (h : a ≠ 0x19) :
    busRead (s.setIll b) a = busRead s a := by
  unfold busRead
  cases hr : regAt a with
  | status => exact absurd (addr_of_regAt_status a hr) h
  | key | din | dout | cmd | reserved => rfl

/-- `ILL` is bit 3 of STATUS and no other: 0 takes the bit away and 1 puts it in (R26). -/
theorem statusByte_of_ill (dout : Bytes8) (ill : Bool) :
    statusByte dout false = statusByte dout ill &&& 0x07 ∧ statusByte dout true = statusByte dout ill ||| 0x08 := by
  unfold statusByte
  generalize ckok dout = x
  generalize tmok dout = y
  generalize valid dout = z
  revert x y z ill; decide

/-- `DOUT` and STATUS stand at 0x10 to 0x17 and 0x19, and no other address reads `DOUT`. -/
theorem busRead_setDout_of_other (s : State) (b : Bytes8) {a : Addr}
    (h : a.toNat < 0x10 ∨ a.toNat = 0x18 ∨ 0x1A ≤ a.toNat) : busRead (s.setDout b) a = busRead s a := by
  unfold busRead
  cases hr : regAt a with
  | dout i =>
    have ha : a.toNat = 0x10 + i.val := by rw [addr_of_regAt_dout a i hr]; exact toNat_doutAddr i
    omega
  | status =>
    rw [addr_of_regAt_status a hr] at h
    simp at h
  | key | din | cmd | reserved => rfl

theorem busRead_setDout_doutAddr (s : State) (b : Bytes8) (i : Lane) :
    busRead (s.setDout b) (0x10 + BitVec.ofNat 8 i.val) = b.get i :=
  busRead_of_regAt_dout _ (regAt_doutAddr i)

/-- Equal blocks are equal after the same command byte (R107). -/
theorem execute_sameBlock {s u : State} (h : Safety.SameBlock s u) (c : Byte) :
    Safety.SameBlock (execute s c) (execute u c) := by
  obtain ⟨hkey, hdin, hdout, hill, hcstate⟩ := h
  unfold execute
  cases decodeCmd8 c with
  | none => exact ⟨hkey, hdin, hdout, rfl, hcstate⟩
  | some k =>
    cases k with
    | nop => exact ⟨hkey, hdin, hdout, hill, hcstate⟩
    | decrypt =>
      exact ⟨hkey, hdin, by simp only [doDecrypt, State.setDout_dout, hkey, hdin, hcstate], hill, hcstate⟩
    | encrypt =>
      exact ⟨hkey, hdin, by simp only [doEncrypt, State.setDout_dout, hkey, hdin, hcstate], hill, hcstate⟩
    | clrstat => exact ⟨hkey, hdin, hdout, rfl, hcstate⟩

end Sys2Proof.Machine

open Sys2Proof Sys2Proof.Machine

/-- Settles O26: the command a byte selects is the effect of that byte. -/
theorem writeToCmdPerformsTheCommand : Obligations.WriteToCmdPerformsTheCommand := by
  unfold Obligations.WriteToCmdPerformsTheCommand
  refine fun s c => ⟨?_, ?_, ?_, ?_, exec_write_illegal s⟩ <;> rintro rfl <;> rw [exec_write_cmd]
  · exact (exec_toInstr .nop s).symm
  · exact (exec_toInstr .decrypt s).symm
  · exact (exec_toInstr .encrypt s).symm
  · exact (exec_toInstr .clrstat s).symm

/-- Settles O38: the effect of NOP is the state itself. -/
theorem nopChangesNothing : Obligations.NopChangesNothing := by
  unfold Obligations.NopChangesNothing
  exact fun _ => rfl

/-- Settles O39: DECRYPT replaces `DOUT`, which is not among what it reads. -/
theorem decryptReplacesDout : Obligations.DecryptReplacesDout := by
  unfold Obligations.DecryptReplacesDout
  intro s
  refine ⟨_, exec_decrypt s, rfl, rfl, rfl, rfl, rfl, ⟨rfl, rfl, rfl⟩, busRead_setDout_doutAddr s _,
    busRead_status _, fun a => busRead_setDout_of_other s _, rfl, fun hkey hcstate hdin hill => ?zero⟩
  case zero =>
    have hdout : decryptBlock s.key s.din s.cstate = Bytes8.zero := by rw [hkey, hdin, hcstate]; decide
    rw [hdout, busRead_status, State.setDout_dout, State.setDout_ill, hill]
    exact ⟨rfl, by decide⟩

/-- Settles O40: ENCRYPT replaces `DOUT`, which is not among what it reads, and Encrypt undoes Decrypt. -/
theorem encryptReplacesDout : Obligations.EncryptReplacesDout := by
  unfold Obligations.EncryptReplacesDout
  intro s
  refine ⟨_, exec_encrypt s, rfl, rfl, rfl, rfl, rfl, ⟨rfl, rfl, rfl⟩, busRead_setDout_doutAddr s _,
    busRead_status _, fun a => busRead_setDout_of_other s _, rfl, fun u v hv hkey hcstate hdin => ?undoes⟩
  case undoes =>
    rw [exec_decrypt] at hv
    cases hv
    rw [State.setDout_dout, hkey, hcstate, hdin, State.setDout_dout, encryptBlock_decryptBlock]

/-- Settles O41: the DECRYPT finds the same key and table, and Decrypt undoes Encrypt. -/
theorem encryptThenDecryptRestoresTheBlock : Obligations.EncryptThenDecryptRestoresTheBlock := by
  unfold Obligations.EncryptThenDecryptRestoresTheBlock
  exact fun s => ⟨_, _, exec_encrypt s, exec_decrypt _, decryptBlock_encryptBlock s.key s.din s.cstate, rfl, rfl⟩

/-- Settles O42: `ILL` is read through bit 3 of STATUS only. -/
theorem clrstatClearsIllOnly : Obligations.ClrstatClearsIllOnly := by
  unfold Obligations.ClrstatClearsIllOnly
  intro s
  have hexec : exec .clrstat s = .next (s.setIll false) := rfl
  obtain ⟨hstatus, -⟩ := statusByte_of_ill s.dout s.ill
  refine ⟨hexec, fun a => busRead_setIll_of_ne s false, ?_, fun hill => by rw [hexec, setIll_eq_self hill]⟩
  rw [busRead_status, busRead_status]
  exact hstatus

/-- Settles O43: `ILL` is read through bit 3 of STATUS only, and none of the four instructions clears it. -/
theorem illegalCommandSetsIllOnly : Obligations.IllegalCommandSetsIllOnly := by
  unfold Obligations.IllegalCommandSetsIllOnly
  intro s c hc
  obtain ⟨-, hstatus⟩ := statusByte_of_ill s.dout s.ill
  refine ⟨exec_write_illegal s hc, fun a => busRead_setIll_of_ne s true, ?status, fun hill i t hi ht => ?sticky⟩
  case status =>
    rw [busRead_status, busRead_status]
    exact hstatus
  case sticky =>
    rcases hi with rfl | rfl | rfl | rfl
    case inr.inr.inr =>
      rw [exec_write_illegal s hc] at ht
      cases ht
      rfl
    all_goals
      cases ht
      exact hill

/-- Settles O44: each of the instructions is the effect of one command byte. -/
theorem commandsAreIdempotent : Obligations.CommandsAreIdempotent := by
  unfold Obligations.CommandsAreIdempotent
  intro s i hi
  obtain ⟨c, hexec⟩ : ∃ c, ∀ s, exec i s = .next (execute s c) := by
    rcases hi with rfl | rfl | rfl | rfl | ⟨c, rfl⟩
    · exact ⟨_, exec_toInstr .nop⟩
    · exact ⟨_, exec_toInstr .decrypt⟩
    · exact ⟨_, exec_toInstr .encrypt⟩
    · exact ⟨_, exec_toInstr .clrstat⟩
    · exact ⟨c, fun s => exec_write_cmd s c⟩
  refine ⟨execute s c, hexec s, by rw [hexec, execute_execute], fun u v hblock hv => ?_⟩
  rw [hexec] at hv
  cases hv
  exact execute_sameBlock hblock c
end

section
/-! ### A host that keeps its obligations (R143, R144, R145) -/

namespace Sys2Proof.Machine

/-- An instruction that issues a command is the effect of the command's byte. -/
theorem exec_of_commandOf {i : Instr} {k : Command} (h : Safety.commandOf i = some k) (s : State) :
    exec i s = .next (execute s k.byte) := by
  cases i with
  | read a => cases h
  | write a d =>
    obtain ⟨ha, hd⟩ : a = cmdAddr ∧ decodeCmd8 d = some k := by simpa [Safety.commandOf] using h
    rw [ha, byte_of_decodeCmd8 hd]
    exact exec_write_cmd s k.byte
  | nop | decrypt | encrypt | clrstat => cases h; rfl

end Sys2Proof.Machine

namespace Sys2Proof.Safety

open Machine

theorem keeps_append (h : HostView) (xs ys : List Input) :
    h.keeps (xs ++ ys) = (h.keeps xs && (h.takeAll xs).keeps ys) := by
  induction xs generalizing h with
  | nil => rfl
  | cons x xs ih =>
    have htake : h.takeAll (x :: xs) = (h.take x).takeAll xs := rfl
    rw [List.cons_append, HostView.keeps, HostView.keeps, ih, htake, Bool.and_assoc]

/-- A host that keeps its obligations issues nothing during a reset (R142). -/
theorem clean_of_allows {h : HostView} {x : Input} (hx : h.allows x = true) : clean x = true := by
  cases x with
  | transaction t => rfl
  | reset during => exact hx

theorem clean_of_keeps {h : HostView} {xs : List Input} (hxs : h.keeps xs = true) : xs.all clean = true := by
  induction xs generalizing h with
  | nil => rfl
  | cons x xs ih =>
    obtain ⟨hx, hxs⟩ := Bool.and_eq_true_iff.mp hxs
    rw [List.all_cons, clean_of_allows hx, ih hxs]
    rfl

/-- The steps that take the inputs in front move the view and the registers alike, in a system of one host. -/
theorem run_trueOf {h : HostView} {s : State} {xs ys : List Input} (hh : s.hosts ≤ 1) (hs : h.TrueOf s)
    (hxs : xs.all clean = true) (hi : s.inputs = xs ++ ys) :
    ∃ u, Host.Core.run core xs.length s = .next u ∧ u.hosts ≤ 1 ∧ u.inputs = ys ∧ (h.takeAll xs).TrueOf u := by
  induction xs generalizing h s with
  | nil => exact ⟨s, rfl, hh, hi, hs⟩
  | cons x xs ih =>
    obtain ⟨hx, hxs⟩ := Bool.and_eq_true_iff.mp hxs
    obtain ⟨t, ht, hstep⟩ := step_takes_input hh hx
    have hself : s.setInputs (x :: (xs ++ ys)) = s := by rw [← List.cons_append, ← hi]; rfl
    have hstep : step s = .next (t.setInputs (xs ++ ys)) := hself ▸ hstep (xs ++ ys)
    have htrue := hostViewStaysTrue h s _ x (xs ++ ys) hs hi hstep
    obtain ⟨u, hrun, hu⟩ := ih (s := t.setInputs (xs ++ ys)) ht htrue hxs rfl
    exact ⟨u, (run_succ xs.length hstep).trans hrun, hu⟩

theorem mem_lanes (i : Lane) : i ∈ lanes := by revert i; decide

/-- Where a DECRYPT keeps the obligations, a true view knows the whole key and the whole block. -/
theorem registers_of_mayDecrypt {h : HostView} {s : State} (hs : h.TrueOf s) (hmay : h.mayDecrypt = true) :
    s.key = h.key ∧ s.din = h.frame := by
  obtain ⟨hkey, hframe⟩ := hs
  simp only [HostView.mayDecrypt, Bool.and_eq_true, List.all_eq_true, List.contains_iff_mem] at hmay
  obtain ⟨⟨hallKey, hallFrame⟩, -⟩ := hmay
  exact ⟨Bytes8.ext_get fun i => hkey i (hallKey i (mem_lanes i)),
    Bytes8.ext_get fun i => hframe i (hallFrame i (mem_lanes i))⟩

/-- A DECRYPT that the host's obligations allow may be issued. -/
theorem mayDecrypt_of_keeps {h : HostView} {t : Record} (hcommand : commandOf (decode t) = some .decrypt)
    (hkeeps : h.keeps [.transaction t] = true) : h.mayDecrypt = true := by
  simpa [HostView.keeps, HostView.allows, hcommand] using hkeeps

end Sys2Proof.Safety

open Sys2Proof Sys2Proof.Machine Sys2Proof.Safety

/-- Settles O53: the view stays true through the inputs before the DECRYPT, which finds every byte of the key and of
the frame written. -/
theorem obligationsKeptGiveTheFrameDecrypted : Obligations.ObligationsKeptGiveTheFrameDecrypted := by
  unfold Obligations.ObligationsKeptGiveTheFrameDecrypted
  intro s xs ys t hh hcommand hkeeps hi
  rw [keeps_append] at hkeeps
  obtain ⟨hxs, hlast⟩ := Bool.and_eq_true_iff.mp hkeeps
  obtain ⟨u, hrun, hu, hui, htrue⟩ := run_trueOf hh (fresh_trueOf s) (clean_of_keeps hxs) hi
  obtain ⟨hkey, hframe⟩ := registers_of_mayDecrypt htrue (mayDecrypt_of_keeps hcommand hlast)
  have hstep : step u = .next (doDecrypt (u.setInputs ys)) :=
    (step_transaction hu hui).trans (exec_of_commandOf hcommand (u.setInputs ys))
  refine ⟨_, (run_add xs.length 1 hrun).trans (run_succ 0 hstep), rfl, ?_⟩
  rw [← hkey, ← hframe, ← run_cstate hrun]
  rfl
end

section
/-! ### Every transaction and every command completes (R120) -/

open Sys2Proof Sys2Proof.Machine

/-- Settles O17: an instruction always answers a next state, a reserved address is inert, and the effect of a byte that
does not decode is to set `ILL`. -/
theorem everyTransactionCompletes : Obligations.EveryTransactionCompletes := by
  unfold Obligations.EveryTransactionCompletes
  refine ⟨exec_next, fun a d s ha => reservedAddressesAreInert s a d ha, fun c s hc => ?illegal⟩
  case illegal =>
    rw [exec_write_cmd, execute_illegal s hc]
    rfl
end

section
/-! ### Reset (R36, R140) -/

namespace Sys2Proof.Machine

/-- STATUS after a reset is the all-zero block's, with `ILL` clear (R36). -/
theorem busRead_resetEvent_status (s : State) : busRead (resetEvent s) 0x19 = 0x01 := busRead_reset_status

end Sys2Proof.Machine

open Sys2Proof Sys2Proof.Machine

/-- Settles O10: the step is the reset event, whose registers are zero and whose table is the state's. -/
theorem resetEventSetsTheBlock : Obligations.ResetEventSetsTheBlock := by
  unfold Obligations.ResetEventSetsTheBlock
  intro s rest hh hi
  exact ⟨resetEvent (s.setInputs rest), step_reset hh hi,
    fun i => ⟨Bytes8.get_zero i, Bytes8.get_zero i, Bytes8.get_zero i⟩, rfl, busRead_resetEvent_status _, rfl⟩
end

section
/-! ### The key of a session (R144) -/

namespace Sys2Proof

theorem Bytes8.set_get_self (a : Bytes8) (i : Lane) : a.set i (a.get i) = a := by
  refine Bytes8.ext_get fun j => ?_
  rw [Bytes8.get_set]
  split
  · next h => rw [h]
  · rfl

end Sys2Proof

namespace Sys2Proof.Safety

open Machine

/-- What an instruction can do to the view: nothing, or it is a DECRYPT, a WRITE to `KEY` or a WRITE to `DIN`. -/
theorem after_cases (h : HostView) (i : Instr) :
    h.after i = h ∨ h.after i = h.decryptIssued ∨ (∃ l v, h.after i = h.wroteKey l v) ∨
      ∃ l v, h.after i = h.wroteFrame l v := by
  unfold HostView.after
  split
  · exact .inr (.inl rfl)
  · split
    · exact .inr (.inr (.inl ⟨_, _, rfl⟩))
    · exact .inr (.inr (.inr ⟨_, _, rfl⟩))
    · exact .inl rfl
  · exact .inl rfl

theorem after_decrypt (h : HostView) {i : Instr} (hi : commandOf i = some .decrypt) :
    h.after i = h.decryptIssued := by
  simp only [HostView.after, hi]

/-- The session is under way, and its key is `k` unless the host has moved it. -/
def HostView.KeyIs (h : HostView) (k : Bytes8) : Prop := h.inSession = true ∧ (h.keyMoved = false → h.key = k)

/-- A WRITE to `KEY` in a session either loads the byte that stands there or counts as moving the key. -/
theorem wroteKey_keyIs {h : HostView} {k : Bytes8} (hk : h.KeyIs k) (l : Lane) (v : Byte) :
    (h.wroteKey l v).KeyIs k := by
  obtain ⟨hsession, hkey⟩ := hk
  refine ⟨hsession, fun hmoved => ?_⟩
  obtain ⟨hstill, hv⟩ : h.keyMoved = false ∧ h.key.get l = v := by
    simpa [HostView.wroteKey, hsession] using hmoved
  calc
    (h.wroteKey l v).key = h.key.set l (h.key.get l) := by rw [hv]; rfl
    _ = h.key := Bytes8.set_get_self h.key l
    _ = k := hkey hstill

theorem after_keyIs {h : HostView} {k : Bytes8} (hk : h.KeyIs k) (i : Instr) : (h.after i).KeyIs k := by
  rcases after_cases h i with e | e | ⟨l, v, e⟩ | ⟨l, v, e⟩ <;> rw [e]
  · exact hk
  · exact ⟨rfl, hk.2⟩
  · exact wroteKey_keyIs hk l v
  · exact hk

/-- Inputs with no reset among them stay in the session. -/
theorem takeAll_keyIs {h : HostView} {k : Bytes8} {ys : List Input} (hk : h.KeyIs k)
    (hys : ∀ d, Input.reset d ∉ ys) : (h.takeAll ys).KeyIs k := by
  induction ys generalizing h with
  | nil => exact hk
  | cons y ys ih =>
    have hrest : ∀ d, Input.reset d ∉ ys := fun d hd => hys d (List.mem_cons_of_mem y hd)
    cases y with
    | transaction r => exact ih (after_keyIs hk (decode r)) hrest
    | reset d => exact absurd List.mem_cons_self (hys d)

theorem takeAll_append_cons (h : HostView) (xs ys : List Input) (x : Input) :
    h.takeAll (xs ++ x :: ys) = ((h.takeAll xs).take x).takeAll ys := by
  simp only [HostView.takeAll, List.foldl_append, List.foldl_cons]

theorem keyMoved_of_mayDecrypt {h : HostView} (hmay : h.mayDecrypt = true) : h.keyMoved = false := by
  simp only [HostView.mayDecrypt, Bool.and_eq_true, Bool.not_eq_true'] at hmay
  exact hmay.2

end Sys2Proof.Safety

open Sys2Proof Sys2Proof.Machine Sys2Proof.Safety

/-- Settles O54: the first DECRYPT opens the session with the key it finds, and the second is allowed only while that
key has not been moved. -/
theorem sessionKeyIsConstant : Obligations.SessionKeyIsConstant := by
  unfold Obligations.SessionKeyIsConstant
  intro xs ys t u hkeeps ht hu hys
  rw [← List.cons_append, ← List.append_assoc, keeps_append] at hkeeps
  have hmay := mayDecrypt_of_keeps hu (Bool.and_eq_true_iff.mp hkeeps).2
  have hfirst : ((HostView.fresh.takeAll xs).take (.transaction t)).KeyIs (HostView.fresh.takeAll xs).key := by
    rw [HostView.take, after_decrypt _ ht]
    exact ⟨rfl, fun _ => rfl⟩
  have hlast := takeAll_keyIs hfirst hys
  rw [← takeAll_append_cons] at hlast
  exact hlast.2 (keyMoved_of_mayDecrypt hmay)
end
